-- ==== Sys2Proof/Word.lean ====
section
/-! DEFINITION. The bit-vector types of the Retro VM interpreter core (00_scope.md R9, R10; 30_encoding.md R71). -/
namespace Sys2Proof

/-- A 16-bit value: an instruction word, `pc`, `I`, a call-stack entry (00_scope.md R7). -/
abbrev Word := BitVec 16

/-- An 8-bit value: a memory byte, a general register, a timer (00_scope.md R7). -/
abbrev Byte := BitVec 8

/-- A 4-bit field: a general register's index V0..VF (10_state.md R20), or a key code 0..15 (60_exceptions.md R242). -/
abbrev Nibble := BitVec 4

/-- The 12-bit address immediate `nnn` (30_encoding.md R71). -/
abbrev Imm12 := BitVec 12

end Sys2Proof
end

