-- ==== Sys2Proof/Config.lean ====
section
/-! DEFINITION. What an implementation fixes (the open parameters of 00_scope.md R7 and R8) and the free values of the model
(the host's inputs that nothing constrains). A configuration is plain data and stands in `State.cfg`, where no step changes it,
so a statement about every state is a statement about every configuration. -/
namespace Sys2Proof

/-- `VF_WRITE_ORDER` (41_alu.md R133, decision D13): which of the two writes of a flag-setting instruction comes last. -/
inductive VfWriteOrder where
  | flagLast
  | resultLast
  deriving DecidableEq, Repr

/-- `ALERT_SAMPLE` (30_encoding.md R92, decision D23): the tick tests `ST` before or after its decrement. -/
inductive AlertSample where
  | before
  | after
  deriving DecidableEq, Repr

/-- The open parameters (00_scope.md R7, R8). Every other parameter of R7 has one value and is written where it is used. -/
structure Config where
  /-- `STACK_LIMIT` (40_control_flow.md R101, decision D24); `none` is unbounded. -/
  stackLimit : Option Nat
  /-- `VF_WRITE_ORDER` (decision D13). -/
  vfWriteOrder : VfWriteOrder
  /-- `ALERT_SAMPLE` (decision D23). -/
  alertSample : AlertSample
  /-- `DRW_CLEARS_VF` (43_display.md R203, decision D21). -/
  drwClearsVf : Bool
  /-- `FONTSET` (10_state.md R37, decision D3): the 80 bytes reset puts at 0x000..0x04F. -/
  fontset : Vector Byte 80
  deriving DecidableEq, Repr

/-- Glyphs 0 to 7 of the default `FONTSET` (10_state.md R37), one glyph a line, top row first. -/
def Config.glyphs0to7 : Vector Byte 40 :=
  #v[0xF0, 0x90, 0x90, 0x90, 0xF0,
     0x20, 0x60, 0x20, 0x20, 0x70,
     0xF0, 0x10, 0xF0, 0x80, 0xF0,
     0xF0, 0x10, 0xF0, 0x10, 0xF0,
     0x90, 0x90, 0xF0, 0x10, 0x10,
     0xF0, 0x80, 0xF0, 0x10, 0xF0,
     0xF0, 0x80, 0xF0, 0x90, 0xF0,
     0xF0, 0x10, 0x20, 0x40, 0x40]

/-- Glyphs 8 to F of the default `FONTSET` (10_state.md R37). -/
def Config.glyphs8toF : Vector Byte 40 :=
  #v[0xF0, 0x90, 0xF0, 0x90, 0xF0,
     0xF0, 0x90, 0xF0, 0x10, 0xF0,
     0xF0, 0x90, 0xF0, 0x90, 0x90,
     0xE0, 0x90, 0xE0, 0x90, 0xE0,
     0xF0, 0x80, 0x80, 0x80, 0xF0,
     0xE0, 0x90, 0x90, 0x90, 0xE0,
     0xF0, 0x80, 0xF0, 0x80, 0xF0,
     0xF0, 0x80, 0xF0, 0x80, 0x80]

/-- The default of `FONTSET` (10_state.md R37; decision D3, from general knowledge in the spec's own words: PRESUMED,
log entry 10). -/
def Config.standardFont : Vector Byte 80 := Config.glyphs0to7 ++ Config.glyphs8toF

/-- The default of every parameter (00_scope.md R7). -/
def Config.defaults : Config where
  stackLimit := none
  vfWriteOrder := .flagLast
  alertSample := .before
  drwClearsVf := false
  fontset := Config.standardFont

/-- FREE VALUE: the random byte `rnd` of the n-th cycle that the host invokes without naming its inputs (00_scope.md R14,
41_alu.md R143: any of 0..255). Log entry 4. -/
opaque Config.freeRnd : Nat → Byte

/-- FREE VALUE: the host's answers `pressed` during the n-th such cycle (60_exceptions.md R242: a function from 0..15 to Bool,
with no law). Log entry 4. -/
opaque Config.freePressed : Nat → Nibble → Bool

end Sys2Proof
end

