-- ==== Sys2Proof/Machine/Transaction.lean ====
section
/-! DEFINITION. The host's transactions with the core (60_exceptions.md R240), as plain data. -/
namespace Sys2Proof.Machine

/-- What the host supplies with a cycle (30_encoding.md R89): which keys are held, by key code 0..15, and the random byte. -/
structure CycleInputs where
  /-- `pressed(k)` for k = 0..15 (60_exceptions.md R242). -/
  pressed : Vector Bool 16
  /-- `rnd` (41_alu.md R143). -/
  rnd : Byte
  deriving DecidableEq, Repr

/-- No key held and `rnd = 0`: the inputs every vector of 95_test_vectors.md uses unless it says otherwise. -/
def CycleInputs.quiet : CycleInputs where
  pressed := Vector.replicate 16 false
  rnd := 0

/-- The transactions the host starts (60_exceptions.md R240). The other rows of R240 (`query_pressed`,
`notify_display_changed`, `alert_active`) happen inside or after a cycle. -/
inductive HostOp where
  /-- `cycle(pressed, rnd)` (R241). -/
  | cycle (inputs : CycleInputs)
  /-- `resume(k)` (R245); `k` is any number the host may pass, and above 15 it is refused. -/
  | resume (k : Nat)
  /-- `reset()` (R247; 70_reset_and_hazards.md R260). -/
  | reset
  /-- `load(image)` (R248; 70_reset_and_hazards.md R264). -/
  | load (image : List Byte)
  deriving DecidableEq, Repr

/-- Is this transaction a cycle? -/
def HostOp.isCycle : HostOp → Bool
  | .cycle _ => true
  | .resume _ => false
  | .reset => false
  | .load _ => false

end Sys2Proof.Machine
end

