-- ==== Sys2Proof/Syntax.lean ====
section
/-! DEFINITION. The 34 instructions, one constructor per row of spec/opcode_table.json (30_encoding.md R80, in its order).
Register fields are `Nibble`, `kk` is a `Byte`, `nnn` an `Imm12`: every term is an encodable instruction. -/
namespace Sys2Proof

/-- The instruction set (00_scope.md R3; 30_encoding.md R80, R81). The operands are the fields R81 passes on: `x`, `y` are
register indices, `kk` the 8-bit immediate, `nnn` the 12-bit address, `n` the sprite height. -/
inductive Instr where
  | cls                              -- 00E0
  | ret                              -- 00EE
  | jp (nnn : Imm12)                 -- 1nnn
  | call (nnn : Imm12)               -- 2nnn
  | seImm (x : Nibble) (kk : Byte)   -- 3xkk
  | sneImm (x : Nibble) (kk : Byte)  -- 4xkk
  | seReg (x y : Nibble)             -- 5xyn, n ignored (R79)
  | ldImm (x : Nibble) (kk : Byte)   -- 6xkk
  | addImm (x : Nibble) (kk : Byte)  -- 7xkk
  | ldReg (x y : Nibble)             -- 8xy0
  | orReg (x y : Nibble)             -- 8xy1
  | andReg (x y : Nibble)            -- 8xy2
  | xorReg (x y : Nibble)            -- 8xy3
  | addReg (x y : Nibble)            -- 8xy4
  | subReg (x y : Nibble)            -- 8xy5
  | shrReg (x y : Nibble)            -- 8xy6
  | subnReg (x y : Nibble)           -- 8xy7
  | shlReg (x y : Nibble)            -- 8xyE
  | sneReg (x y : Nibble)            -- 9xyn, n ignored (R79)
  | ldI (nnn : Imm12)                -- Annn
  | jpV0 (nnn : Imm12)               -- Bnnn
  | rnd (x : Nibble) (kk : Byte)     -- Cxkk
  | drw (x y n : Nibble)             -- Dxyn
  | skp (x : Nibble)                 -- Ex9E
  | sknp (x : Nibble)                -- ExA1
  | ldFromDT (x : Nibble)            -- Fx07
  | ldKey (x : Nibble)               -- Fx0A
  | ldDT (x : Nibble)                -- Fx15
  | ldST (x : Nibble)                -- Fx18
  | addI (x : Nibble)                -- Fx1E
  | ldF (x : Nibble)                 -- Fx29
  | ldB (x : Nibble)                 -- Fx33
  | stRegs (x : Nibble)              -- Fx55
  | ldRegs (x : Nibble)              -- Fx65
  deriving DecidableEq, Repr

end Sys2Proof
end

