-- ==== Sys2Proof/WellFormed.lean ====
section
/-! DEFINITION. What is well formed: the legal instruction words, read off the opcode map row by row (30_encoding.md R80, R83),
and the host transactions the spec does not refuse whatever the state (60_exceptions.md R245, 70_reset_and_hazards.md R264).
The operand types of `Instr` admit exactly the values its fields can encode (30_encoding.md R71), so every term of `Instr` is
well formed and no check on it is needed. -/
namespace Sys2Proof

/-- One row of the opcode map: a word `w` belongs to the row when `w` masked by `mask` is `value` (30_encoding.md R80). -/
structure OpcodeRow where
  mask : Word
  value : Word
  deriving DecidableEq, Repr

/-- The row an instruction stands in (30_encoding.md R80). -/
def Instr.row : Instr → OpcodeRow
  | .cls => ⟨0xFFFF, 0x00E0⟩
  | .ret => ⟨0xFFFF, 0x00EE⟩
  | .jp _ => ⟨0xF000, 0x1000⟩
  | .call _ => ⟨0xF000, 0x2000⟩
  | .seImm _ _ => ⟨0xF000, 0x3000⟩
  | .sneImm _ _ => ⟨0xF000, 0x4000⟩
  | .seReg _ _ => ⟨0xF000, 0x5000⟩
  | .ldImm _ _ => ⟨0xF000, 0x6000⟩
  | .addImm _ _ => ⟨0xF000, 0x7000⟩
  | .ldReg _ _ => ⟨0xF00F, 0x8000⟩
  | .orReg _ _ => ⟨0xF00F, 0x8001⟩
  | .andReg _ _ => ⟨0xF00F, 0x8002⟩
  | .xorReg _ _ => ⟨0xF00F, 0x8003⟩
  | .addReg _ _ => ⟨0xF00F, 0x8004⟩
  | .subReg _ _ => ⟨0xF00F, 0x8005⟩
  | .shrReg _ _ => ⟨0xF00F, 0x8006⟩
  | .subnReg _ _ => ⟨0xF00F, 0x8007⟩
  | .shlReg _ _ => ⟨0xF00F, 0x800E⟩
  | .sneReg _ _ => ⟨0xF000, 0x9000⟩
  | .ldI _ => ⟨0xF000, 0xA000⟩
  | .jpV0 _ => ⟨0xF000, 0xB000⟩
  | .rnd _ _ => ⟨0xF000, 0xC000⟩
  | .drw _ _ _ => ⟨0xF000, 0xD000⟩
  | .skp _ => ⟨0xF0FF, 0xE09E⟩
  | .sknp _ => ⟨0xF0FF, 0xE0A1⟩
  | .ldFromDT _ => ⟨0xF0FF, 0xF007⟩
  | .ldKey _ => ⟨0xF0FF, 0xF00A⟩
  | .ldDT _ => ⟨0xF0FF, 0xF015⟩
  | .ldST _ => ⟨0xF0FF, 0xF018⟩
  | .addI _ => ⟨0xF0FF, 0xF01E⟩
  | .ldF _ => ⟨0xF0FF, 0xF029⟩
  | .ldB _ => ⟨0xF0FF, 0xF033⟩
  | .stRegs _ => ⟨0xF0FF, 0xF055⟩
  | .ldRegs _ => ⟨0xF0FF, 0xF065⟩

/-- One instruction of each row, in the order of the opcode map (30_encoding.md R80); the operands do not matter. -/
def opcodeSamples : List Instr :=
  [.cls, .ret, .jp 0, .call 0, .seImm 0 0, .sneImm 0 0, .seReg 0 0, .ldImm 0 0, .addImm 0 0, .ldReg 0 0, .orReg 0 0,
   .andReg 0 0] ++
  [.xorReg 0 0, .addReg 0 0, .subReg 0 0, .shrReg 0 0, .subnReg 0 0, .shlReg 0 0, .sneReg 0 0, .ldI 0, .jpV0 0, .rnd 0 0,
   .drw 0 0 0, .skp 0] ++
  [.sknp 0, .ldFromDT 0, .ldKey 0, .ldDT 0, .ldST 0, .addI 0, .ldF 0, .ldB 0, .stRegs 0, .ldRegs 0]

/-- The opcode map: its 34 rows (30_encoding.md R80). -/
def opcodeMap : List OpcodeRow := opcodeSamples.map Instr.row

/-- A row matches a word (30_encoding.md R80). -/
def OpcodeRow.matchesWord (r : OpcodeRow) (w : Word) : Bool := w &&& r.mask == r.value

/-- A word is legal when some row of the opcode map matches it (30_encoding.md R80, R83). -/
def legalWord (w : Word) : Bool := opcodeMap.any (·.matchesWord w)

/-- A host transaction that the spec does not refuse for its operand alone: a key code is at most 15 (60_exceptions.md R245), a
program image at most 3584 bytes long (70_reset_and_hazards.md R264). -/
def Machine.HostOp.wf : Machine.HostOp → Bool
  | .cycle _ => true
  | .resume k => k ≤ 15
  | .reset => true
  | .load image => image.length ≤ 3584

end Sys2Proof
end

