-- ==== Sys2Proof/Decode.lean ====
section
/-! DEFINITION. The decoder (30_encoding.md R81), a total function from the 16-bit word that rejects by name, and the encoder
written from the same opcode map (R80; PRESUMED by the spec itself, log entry 11). The byte-order helpers of the fetch stand here too (20_memory.md R52). -/
namespace Sys2Proof

/-- Why a word has no instruction (30_encoding.md R83): the raw word, which the fault record carries (60_exceptions.md R221). -/
inductive DecodeError where
  | decodeFailure (op : Word)
  deriving DecidableEq, Repr

/-- `op[15:12]`, the family (30_encoding.md R71). -/
def fieldF (op : Word) : Nibble := op.extractLsb' 12 4

/-- `x = op[11:8]` (30_encoding.md R71). -/
def fieldX (op : Word) : Nibble := op.extractLsb' 8 4

/-- `y = op[7:4]` (30_encoding.md R71). -/
def fieldY (op : Word) : Nibble := op.extractLsb' 4 4

/-- `n = op[3:0]` (30_encoding.md R71). -/
def fieldN (op : Word) : Nibble := op.extractLsb' 0 4

/-- `kk = op[7:0]` (30_encoding.md R71). -/
def fieldKK (op : Word) : Byte := op.extractLsb' 0 8

/-- `nnn = op[11:0]` (30_encoding.md R71). -/
def fieldNNN (op : Word) : Imm12 := op.extractLsb' 0 12

/-- Family 0x0: the key is all of `op[11:0]` (30_encoding.md R75). -/
def decodeFamily0 (op : Word) : Except DecodeError Instr :=
  match (fieldNNN op).toNat with
  | 0x0E0 => .ok .cls
  | 0x0EE => .ok .ret
  | _ => .error (.decodeFailure op)

/-- Family 0x8: the key is `n` (30_encoding.md R76). -/
def decodeFamily8 (op : Word) : Except DecodeError Instr :=
  match (fieldN op).toNat with
  | 0x0 => .ok (.ldReg (fieldX op) (fieldY op))
  | 0x1 => .ok (.orReg (fieldX op) (fieldY op))
  | 0x2 => .ok (.andReg (fieldX op) (fieldY op))
  | 0x3 => .ok (.xorReg (fieldX op) (fieldY op))
  | 0x4 => .ok (.addReg (fieldX op) (fieldY op))
  | 0x5 => .ok (.subReg (fieldX op) (fieldY op))
  | 0x6 => .ok (.shrReg (fieldX op) (fieldY op))
  | 0x7 => .ok (.subnReg (fieldX op) (fieldY op))
  | 0xE => .ok (.shlReg (fieldX op) (fieldY op))
  | _ => .error (.decodeFailure op)

/-- Family 0xE: the key is `kk` (30_encoding.md R77). -/
def decodeFamilyE (op : Word) : Except DecodeError Instr :=
  match (fieldKK op).toNat with
  | 0x9E => .ok (.skp (fieldX op))
  | 0xA1 => .ok (.sknp (fieldX op))
  | _ => .error (.decodeFailure op)

/-- Family 0xF: the key is `kk` (30_encoding.md R78). -/
def decodeFamilyF (op : Word) : Except DecodeError Instr :=
  match (fieldKK op).toNat with
  | 0x07 => .ok (.ldFromDT (fieldX op))
  | 0x0A => .ok (.ldKey (fieldX op))
  | 0x15 => .ok (.ldDT (fieldX op))
  | 0x18 => .ok (.ldST (fieldX op))
  | 0x1E => .ok (.addI (fieldX op))
  | 0x29 => .ok (.ldF (fieldX op))
  | 0x33 => .ok (.ldB (fieldX op))
  | 0x55 => .ok (.stRegs (fieldX op))
  | 0x65 => .ok (.ldRegs (fieldX op))
  | _ => .error (.decodeFailure op)

/-- The decoder (30_encoding.md R81): the family selects, then the secondary key where the family has one (R74). -/
def decode (op : Word) : Except DecodeError Instr :=
  match (fieldF op).toNat with
  | 0x0 => decodeFamily0 op
  | 0x1 => .ok (.jp (fieldNNN op))
  | 0x2 => .ok (.call (fieldNNN op))
  | 0x3 => .ok (.seImm (fieldX op) (fieldKK op))
  | 0x4 => .ok (.sneImm (fieldX op) (fieldKK op))
  | 0x5 => .ok (.seReg (fieldX op) (fieldY op))
  | 0x6 => .ok (.ldImm (fieldX op) (fieldKK op))
  | 0x7 => .ok (.addImm (fieldX op) (fieldKK op))
  | 0x8 => decodeFamily8 op
  | 0x9 => .ok (.sneReg (fieldX op) (fieldY op))
  | 0xA => .ok (.ldI (fieldNNN op))
  | 0xB => .ok (.jpV0 (fieldNNN op))
  | 0xC => .ok (.rnd (fieldX op) (fieldKK op))
  | 0xD => .ok (.drw (fieldX op) (fieldY op) (fieldN op))
  | 0xE => decodeFamilyE op
  | 0xF => decodeFamilyF op
  | _ => .error (.decodeFailure op)   -- a 4-bit family is at most 0xF: never reached

/-- The word of format `NNN` (30_encoding.md R72): family, then `nnn`. -/
def wordNNN (f : Nibble) (nnn : Imm12) : Word := f ++ nnn

/-- The word of formats `XKK` and `XFN` (30_encoding.md R72): family, `x`, `kk`. -/
def wordXKK (f x : Nibble) (kk : Byte) : Word := f ++ x ++ kk

/-- The word of format `XYN` (30_encoding.md R72): family, `x`, `y`, `n`. -/
def wordXYN (f x y n : Nibble) : Word := f ++ x ++ y ++ n

/-- The encoder (30_encoding.md R80). SE Vx, Vy and SNE Vx, Vy get the nibble `n = 0`, the original form (R79; DESIGN CHOICE,
log entry 12). -/
def encode : Instr → Word
  | .cls => 0x00E0
  | .ret => 0x00EE
  | .jp nnn => wordNNN 0x1 nnn
  | .call nnn => wordNNN 0x2 nnn
  | .seImm x kk => wordXKK 0x3 x kk
  | .sneImm x kk => wordXKK 0x4 x kk
  | .seReg x y => wordXYN 0x5 x y 0x0
  | .ldImm x kk => wordXKK 0x6 x kk
  | .addImm x kk => wordXKK 0x7 x kk
  | .ldReg x y => wordXYN 0x8 x y 0x0
  | .orReg x y => wordXYN 0x8 x y 0x1
  | .andReg x y => wordXYN 0x8 x y 0x2
  | .xorReg x y => wordXYN 0x8 x y 0x3
  | .addReg x y => wordXYN 0x8 x y 0x4
  | .subReg x y => wordXYN 0x8 x y 0x5
  | .shrReg x y => wordXYN 0x8 x y 0x6
  | .subnReg x y => wordXYN 0x8 x y 0x7
  | .shlReg x y => wordXYN 0x8 x y 0xE
  | .sneReg x y => wordXYN 0x9 x y 0x0
  | .ldI nnn => wordNNN 0xA nnn
  | .jpV0 nnn => wordNNN 0xB nnn
  | .rnd x kk => wordXKK 0xC x kk
  | .drw x y n => wordXYN 0xD x y n
  | .skp x => wordXKK 0xE x 0x9E
  | .sknp x => wordXKK 0xE x 0xA1
  | .ldFromDT x => wordXKK 0xF x 0x07
  | .ldKey x => wordXKK 0xF x 0x0A
  | .ldDT x => wordXKK 0xF x 0x15
  | .ldST x => wordXKK 0xF x 0x18
  | .addI x => wordXKK 0xF x 0x1E
  | .ldF x => wordXKK 0xF x 0x29
  | .ldB x => wordXKK 0xF x 0x33
  | .stRegs x => wordXKK 0xF x 0x55
  | .ldRegs x => wordXKK 0xF x 0x65

/-- The big-endian word of two bytes, the one at the lower address first (20_memory.md R52). -/
def wordOfBytes (byte1 byte2 : Byte) : Word := byte1 ++ byte2

/-- The byte of a word that lies at the lower address, its high byte (20_memory.md R52; 30_encoding.md R70). -/
def highByte (w : Word) : Byte := w.extractLsb' 8 8

/-- The byte of a word that lies at the higher address, its low byte (20_memory.md R52; 30_encoding.md R70). -/
def lowByte (w : Word) : Byte := w.extractLsb' 0 8

/-- The 16-bit word whose bits are `w`, of which the opcode table gives the lowest `nbits`; the others are 0. Every
instruction is one word (30_encoding.md R70), so bits 16 and up belong to none. -/
def tableWord (nbits w : Nat) : Word := BitVec.ofNat 16 (w % 2 ^ nbits)

/-- The instruction the decoder reads from an instruction whose bits are `w`, numbered as spec/opcode_table.json numbers them:
the word is laid out as memory holds it and read back as the fetch reads it (20_memory.md R52). -/
def decodeTableWord (nbits w : Nat) : Option Instr :=
  match decode (wordOfBytes (highByte (tableWord nbits w)) (lowByte (tableWord nbits w))) with
  | .ok i => some i
  | .error _ => none

end Sys2Proof
end

