-- ==== Sys2Proof/Machine/State.lean ====
section
/-! DEFINITION. The state of one core (10_state.md: the tuple `(mem, V, I, pc, stack, DT, ST, fb, alert, run)`), with the
configuration it runs under and the model's own record of the host's side, all plain data; the reasons a step can stop; reset. -/
namespace Sys2Proof.Machine

/-- The fault kinds, each with the value it records (60_exceptions.md R220). Raising one is a next state: the core halts
(R230). -/
inductive FaultKind where
  /-- Code 1: an illegal word (R221). -/
  | decodeFailure (op : Word)
  /-- Code 2: RET with an empty stack (R222). -/
  | stackUnderflow
  /-- Code 3: the first address above 0xFFF that an access would touch (R224). -/
  | addressOutOfRange (addr : Nat)
  /-- Code 4: a fetch at an odd `pc` (R225). -/
  | pcMisaligned (pc : Word)
  /-- Code 5: the first address below 0x200 that an instruction would write (R226). -/
  | reservedWrite (addr : Nat)
  /-- Code 6: the sum `I + V[x]` above 0xFFFF (R227). -/
  | indexOverflow (sum : Nat)
  /-- Code 7: CALL at the depth `STACK_LIMIT` (R223). -/
  | stackOverflow (depth : Nat)
  deriving DecidableEq, Repr

/-- The code of a fault kind (60_exceptions.md R220). -/
def FaultKind.code : FaultKind → Nat
  | .decodeFailure _ => 1
  | .stackUnderflow => 2
  | .addressOutOfRange _ => 3
  | .pcMisaligned _ => 4
  | .reservedWrite _ => 5
  | .indexOverflow _ => 6
  | .stackOverflow _ => 7

/-- The value a fault kind records (60_exceptions.md R220). -/
def FaultKind.info : FaultKind → Option Nat
  | .decodeFailure op => some op.toNat
  | .stackUnderflow => none
  | .addressOutOfRange addr => some addr
  | .pcMisaligned pc => some pc.toNat
  | .reservedWrite addr => some addr
  | .indexOverflow sum => some sum
  | .stackOverflow depth => some depth

/-- The fault record (60_exceptions.md R228). Its fields `code` and `info` are those of `kind`. -/
structure FaultRecord where
  /-- `code` and `info`. -/
  kind : FaultKind
  /-- The address of the instruction being fetched or executed. -/
  pc : Word
  /-- The word fetched; absent for a fault the fetch raised. -/
  op : Option Word
  deriving DecidableEq, Repr

/-- The run state (10_state.md R34). -/
inductive RunState where
  | running
  | awaitingKey (x : Nibble)
  | halted (f : FaultRecord)
  deriving DecidableEq, Repr

/-- An output event of a cycle (30_encoding.md R88; 43_display.md R204). -/
inductive Event where
  | displayChanged
  deriving DecidableEq, Repr

/-- The instruction of the cycle in progress: the pseudocode's `A` and `op?` (30_encoding.md R90). -/
structure Fetched where
  addr : Word
  op : Option Word
  deriving DecidableEq, Repr

/-- Memory as the bytes that differ from their reset contents, in canonical form: addresses strictly rising, no entry equal to
what an unlisted address reads as (`resetByte`). -/
abbrev Memory := List Host.Cell

/-- The framebuffer: 32 rows of 64 one-bit cells, `fb[y][x]` (10_state.md R33). -/
abbrev Frame := Vector (Vector Bool 64) 32

/-- The state. The first ten fields are the spec's tuple; `cfg` is the configuration (00_scope.md R8: an argument of the
model); the last five are the MODEL'S OWN record of the host's side and of the cycle in progress (log entries 1 to 5). -/
structure State where
  /-- `mem`, 4096 bytes (10_state.md R35). -/
  mem : Memory
  /-- `V0..VF` (10_state.md R20). -/
  v : Vector Byte 16
  /-- `I` (10_state.md R28). -/
  i : Word
  /-- `pc` (10_state.md R24). -/
  pc : Word
  /-- The call stack, top first (10_state.md R29). -/
  stack : List Word
  /-- `DT` (10_state.md R30). -/
  dt : Byte
  /-- `ST` (10_state.md R31). -/
  st : Byte
  /-- `fb` (10_state.md R33). -/
  fb : Frame
  /-- `alert` (10_state.md R32). -/
  alert : Bool
  /-- `run` (10_state.md R34). -/
  run : RunState
  /-- The configuration (00_scope.md R7, R8); no step changes it. -/
  cfg : Config
  /-- The host's transactions still to come, the next one first; when there is none, the host invokes a cycle with free inputs. -/
  inbox : List HostOp
  /-- How many cycles have been given free inputs: the argument of the free values of `Config`. -/
  freeCycles : Nat
  /-- The inputs of the latest cycle that ran an instruction (30_encoding.md R89). -/
  inputs : CycleInputs
  /-- The pseudocode's `A` and `op` of that cycle (30_encoding.md R90). -/
  cur : Fetched
  /-- The output events of the latest transaction (30_encoding.md R88). -/
  events : List Event
  deriving DecidableEq, Repr

/-- No step stops with a fault: every fault of the spec has an effect (60_exceptions.md R230: the core halts with its record),
so raising one is a next state whose `run` is `halted` (DEDUCED, log entry 7). The type has no constructor: nobody raises one. -/
inductive Fault where
  deriving DecidableEq, Repr

/-- Why a step has no next state. -/
inductive Refusal where
  /-- An arm of `exec` that has no meaning yet. Nobody raises it: every arm has one. Safe. -/
  | notModelled (mnemonic : String)
  /-- The host's `resume` in a state that is not `awaitingKey`, or with a key code above 15 (60_exceptions.md R245: "has no
  transition. The model refuses it"). Raised by `resume`. Safe. -/
  | resumeRefused
  /-- The host's `load` of more than 3584 bytes (70_reset_and_hazards.md R264: "refused: there is no launch state for it").
  Raised by `load`. Safe. -/
  | imageTooLong
  /-- The host's `load` in a state that reset did not produce (70_reset_and_hazards.md R264: "outside the model").
  Raised by `load`. Safe. -/
  | loadNotAfterReset
  deriving DecidableEq, Repr

/-- The state after reset under a configuration (70_reset_and_hazards.md R260): memory holds its reset contents (nothing is
listed), everything else is zero, empty or off, `pc` is 0x200 and the core runs. The model's own fields are empty too
(log entries 2 to 5). -/
def State.resetWith (cfg : Config) : State where
  mem := []
  v := Vector.replicate 16 0
  i := 0
  pc := 0x200
  stack := []
  dt := 0
  st := 0
  fb := Vector.replicate 32 (Vector.replicate 64 false)
  alert := false
  run := .running
  cfg := cfg
  inbox := []
  freeCycles := 0
  inputs := CycleInputs.quiet
  cur := { addr := 0x200, op := none }
  events := []

/-- The state after reset under the default parameters (70_reset_and_hazards.md R260; 00_scope.md R7). -/
def State.reset : State := State.resetWith Config.defaults

end Sys2Proof.Machine
end

