-- ==== Sys2Proof/Machine/Ops.lean ====
section
/-! DEFINITION. The named operations over registers, memory, the framebuffer, the call stack and the timers; the access check;
taking a fault (60_exceptions.md R230). There is no return from a fault (R231): only reset leaves `halted`. -/
namespace Sys2Proof.Machine

/- ## Registers (10_state.md section 1) -/

/-- `V[x]` (10_state.md R20). -/
def State.reg (s : State) (x : Nibble) : Byte := s.v[x.toNat]'(x.isLt)

/-- `V[x] <- b` (10_state.md R20, R21). -/
def State.setReg (s : State) (x : Nibble) (b : Byte) : State :=
  { s with v := s.v.set x.toNat b x.isLt }

/-- `V[k] <- b0, V[k+1] <- b1, …` in ascending index order (42_memory_timers_keys.md R174). -/
def fillRegs : List Byte → Nat → Vector Byte 16 → Vector Byte 16
  | [], _, v => v
  | b :: bs, k, v => fillRegs bs (k + 1) (v.setIfInBounds k b)

/- ## Memory (10_state.md section 8; 20_memory.md) -/

/-- What an address that is not listed reads as: the reset contents, `FONTSET` at 0x000..0x04F and 0 elsewhere
(10_state.md R35; 70_reset_and_hazards.md R260). -/
def resetByte (cfg : Config) (a : Nat) : Byte :=
  if h : a < 80 then cfg.fontset[a] else 0

/-- The byte listed for an address, or `base` of it. -/
def Memory.read (base : Nat → Byte) : Memory → Nat → Byte
  | [], a => base a
  | (b, w) :: m, a => if a = b then w else Memory.read base m a

/-- List a byte at its place in the rising order, in place of any byte listed there. -/
def Memory.insert (a : Nat) (w : Byte) : Memory → Memory
  | [] => [(a, w)]
  | (b, u) :: m => if a < b then (a, w) :: (b, u) :: m else if a = b then (a, w) :: m else (b, u) :: Memory.insert a w m

/-- Take an address off the list. -/
def Memory.erase (a : Nat) (m : Memory) : Memory := m.filter (fun c => c.1 != a)

/-- Write a byte and keep the canonical form: the value an unlisted address reads as is not listed. -/
def Memory.write (base : Nat → Byte) (m : Memory) (a : Nat) (w : Byte) : Memory :=
  if w = base a then Memory.erase a m else Memory.insert a w m

/-- The canonical form: addresses strictly rising and within 0x000..0xFFF, no entry equal to what an unlisted address reads
as. -/
def Memory.wf (base : Nat → Byte) (m : Memory) : Bool :=
  decide (m.Pairwise (fun c d => c.1 < d.1)) && m.all (fun c => c.1 ≤ 0xFFF && c.2 != base c.1)

/-- `MemRead(a, 1)` without its check (00_scope.md R12). -/
def State.readByte (s : State) (a : Nat) : Byte := s.mem.read (resetByte s.cfg) a

/-- `MemWrite(a, 1, b)` without its check (00_scope.md R12). -/
def State.writeByte (s : State) (a : Nat) (b : Byte) : State :=
  { s with mem := s.mem.write (resetByte s.cfg) a b }

/-- The bytes at `a .. a+k-1`, in ascending address order (20_memory.md R54). -/
def State.loadBytes (s : State) (a k : Nat) : List Byte := (List.range k).map (fun j => s.readByte (a + j))

/-- Store bytes at `a, a+1, …` in ascending address order (20_memory.md R54). -/
def State.storeBytes (s : State) (a : Nat) : List Byte → State
  | [] => s
  | b :: bs => (s.writeByte a b).storeBytes (a + 1) bs

/-- Whether an access reads or writes (20_memory.md R55). -/
inductive AccessKind where
  | read
  | write
  deriving DecidableEq, Repr

/-- `check(a, k, is_write)` (20_memory.md R55): the addresses `a .. a+k-1` in ascending order; the first that fails decides the
fault. Addresses are not reduced. -/
def checkAccess (kind : AccessKind) : Nat → Nat → Option FaultKind
  | _, 0 => none
  | a, k + 1 =>
    if a > 0xFFF then some (.addressOutOfRange a)
    else if kind = .write ∧ a < 0x200 then some (.reservedWrite a)
    else checkAccess kind (a + 1) k

/- ## Faults (60_exceptions.md section 1) -/

/-- Take a fault (60_exceptions.md R230; 00_scope.md R13): every effect of the cycle is discarded, so `pc` is again the address
`A` of the instruction and no event is kept, and the core halts with the record `(kind, A, op?)` (R228). Meanings take a fault
before they change anything, so `pc` and `events` are all there is to discard. -/
def State.takeFault (s : State) (k : FaultKind) : State :=
  { s with pc := s.cur.addr, events := [], run := .halted { kind := k, pc := s.cur.addr, op := s.cur.op } }

/-- Run the access check; where it passes the effect `f` happens, where it fails the fault is taken and nothing else
(20_memory.md R55). -/
def State.afterCheck (s : State) (kind : AccessKind) (a k : Nat) (f : State → State) : State :=
  match checkAccess kind a k with
  | some fault => s.takeFault fault
  | none => f s

/- ## Program counter and call stack (10_state.md sections 2 and 4) -/

/-- The skip rule (40_control_flow.md R104): if the condition holds, `pc <- pc + 2`. -/
def State.skipIf (s : State) (c : Bool) : State := { s with pc := if c then s.pc + 2 else s.pc }

/-- The stack already holds `STACK_LIMIT` entries (40_control_flow.md R101). -/
def State.stackFull (s : State) : Bool :=
  match s.cfg.stackLimit with
  | none => false
  | some limit => limit ≤ s.stack.length

/- ## Framebuffer (10_state.md section 6; 43_display.md) -/

/-- `fb[y][x]`; a cell outside the 64 × 32 grid reads as unset. -/
def Frame.cell (fb : Frame) (x y : Nat) : Bool := ((fb[y]?.getD (Vector.replicate 64 false))[x]?).getD false

/-- `fb[y][x] <- p` for a cell of the grid. -/
def Frame.setCell (fb : Frame) (x y : Nat) (p : Bool) : Frame :=
  fb.setIfInBounds y ((fb[y]?.getD (Vector.replicate 64 false)).setIfInBounds x p)

/-- Every cell unset (43_display.md R200). -/
def Frame.clear : Frame := Vector.replicate 32 (Vector.replicate 64 false)

/-- Apply one source pixel to the cell `(x, y)` of a framebuffer, with the collision so far (43_display.md R201 to R203): outside
the grid it is dropped; inside, it is XOR-ed in, and a set pixel on a set cell is a collision. -/
def plotPixel (x y : Nat) (p : Bool) (c : Frame × Bool) : Frame × Bool :=
  if x ≤ 63 ∧ y ≤ 31 then (c.1.setCell x y (c.1.cell x y ^^ p), c.2 || (p && c.1.cell x y)) else c

/-- Apply the eight pixels of a sprite byte from column `x0` of row `y`, most significant bit first (43_display.md R201). -/
def plotRow (x0 y : Nat) (row : Byte) (c : Frame × Bool) : Frame × Bool :=
  (List.range 8).foldl (fun c i => plotPixel (x0 + i) y (row.getLsbD (7 - i)) c) c

/-- Apply the rows of a sprite downward from row `y` (43_display.md R201). -/
def plotRows (x0 : Nat) : Nat → List Byte → Frame × Bool → Frame × Bool
  | _, [], c => c
  | y, row :: rows, c => plotRows x0 (y + 1) rows (plotRow x0 y row c)

/-- Emit `DisplayChanged` (43_display.md R204). -/
def State.notifyDisplay (s : State) : State := { s with events := s.events ++ [.displayChanged] }

/- ## Timers (30_encoding.md section 5) -/

/-- A timer's decrement: by 1 if above 0 (30_encoding.md R92). -/
def countDown (t : Byte) : Byte := if t = 0 then 0 else t - 1

/-- `tick()` (30_encoding.md R92). -/
def State.tick (s : State) : State :=
  { s with
    dt := countDown s.dt
    st := countDown s.st
    alert := match s.cfg.alertSample with
      | .before => s.st != 0
      | .after => countDown s.st != 0 }

end Sys2Proof.Machine
end

