-- ==== Sys2Proof/Machine/Operands.lean ====
section
/-! DEFINITION. The operand forms: the 12-bit address, the indexed target, the base address in `I`, a glyph's address, the key
query, the decimal digits, the registers of a block transfer. Register fields `x` and `y` read through `State.reg`; `kk` and `n`
are used as written (30_encoding.md R73). -/
namespace Sys2Proof.Machine

/-- `zext_16(nnn)` (30_encoding.md R73). -/
def addressOf (nnn : Imm12) : Word := nnn.zeroExtend 16

/-- `zext_16(nnn) + V[0]`, at most 0x10FE and so never reduced (40_control_flow.md R103). -/
def State.indexedTarget (s : State) (nnn : Imm12) : Word :=
  BitVec.ofNat 16 (nnn.toNat + (s.reg 0).toNat)

/-- The base address in `I`, as the number accesses start from (42_memory_timers_keys.md R170). -/
def State.base (s : State) : Nat := s.i.toNat

/-- `I + V[x]`, exact (41_alu.md R145). -/
def State.indexSum (s : State) (x : Nibble) : Nat := s.i.toNat + (s.reg x).toNat

/-- `V[x] * 5`, at most 1275 and so never reduced (42_memory_timers_keys.md R171). -/
def State.glyphAddress (s : State) (x : Nibble) : Word := BitVec.ofNat 16 ((s.reg x).toNat * 5)

/-- `(V[x] ≤ 15) and pressed(V[x])`, the key query of SKP and SKNP (40_control_flow.md R109, R110; 60_exceptions.md R242). -/
def State.keyHeld (s : State) (x : Nibble) : Bool := (s.inputs.pressed[(s.reg x).toNat]?).getD false

/-- The hundreds, tens and units of a byte (42_memory_timers_keys.md R172). -/
def decimalDigits (b : Byte) : List Byte :=
  [BitVec.ofNat 8 (b.toNat / 100), BitVec.ofNat 8 (b.toNat / 10 % 10), BitVec.ofNat 8 (b.toNat % 10)]

/-- `V[0], …, V[x]`, in ascending index order (42_memory_timers_keys.md R173). -/
def State.regsUpTo (s : State) (x : Nibble) : List Byte := s.v.toList.take (x.toNat + 1)

end Sys2Proof.Machine
end

