-- ==== Sys2Proof/Machine/Flags.lean ====
section
/-! DEFINITION. The results and flags of the flag-setting instructions, and the writes into VF (41_alu.md R133, R138 to R142;
43_display.md R203). Arithmetic is exact on integers and reduced mod 256 at the end (00_scope.md R10). -/
namespace Sys2Proof.Machine

/-- The index of VF (00_scope.md R11). -/
def vfIndex : Nibble := 15

/-- A flag as the byte VF gets. -/
def flagByte (f : Bool) : Byte := if f then 1 else 0

/-- `(a + b) mod 256` (41_alu.md R132, R138). -/
def addResult (a b : Byte) : Byte := BitVec.ofNat 8 ((a.toNat + b.toNat) % 256)

/-- The carry: 1 if `a + b > 255` (41_alu.md R138). -/
def addCarry (a b : Byte) : Bool := a.toNat + b.toNat > 255

/-- `(a - b) mod 256` (41_alu.md R139, R141). -/
def subResult (a b : Byte) : Byte := BitVec.ofInt 8 (((a.toNat : Int) - (b.toNat : Int)) % 256)

/-- No borrow: 1 if `a ≥ b` (41_alu.md R139, R141). -/
def subNoBorrow (a b : Byte) : Bool := b.toNat ≤ a.toNat

/-- `b >> 1` (41_alu.md R140). -/
def shrResult (b : Byte) : Byte := b >>> 1

/-- `b & 1`, the bit shifted out to the right (41_alu.md R140). -/
def shrFlag (b : Byte) : Bool := b.getLsbD 0

/-- `(b << 1) mod 256` (41_alu.md R142). -/
def shlResult (b : Byte) : Byte := b <<< 1

/-- `(b >> 7) & 1`, the bit shifted out to the left (41_alu.md R142). -/
def shlFlag (b : Byte) : Bool := b.getLsbD 7

/-- `write_result_and_flag(x, res, flg)`: the two writes in the order `VF_WRITE_ORDER` gives (41_alu.md R133). -/
def State.writeResultAndFlag (s : State) (x : Nibble) (res : Byte) (flg : Bool) : State :=
  match s.cfg.vfWriteOrder with
  | .flagLast => (s.setReg x res).setReg vfIndex (flagByte flg)
  | .resultLast => (s.setReg vfIndex (flagByte flg)).setReg x res

/-- `VF-update(coll)` of a DRW with at least one row (43_display.md R203). -/
def State.updateCollision (s : State) (coll : Bool) : State :=
  if s.cfg.drwClearsVf then s.setReg vfIndex (flagByte coll)
  else if coll then s.setReg vfIndex 1
  else s

end Sys2Proof.Machine
end

