-- ==== Sys2Proof/Machine/Alu.lean ====
section
/-! DEFINITION. The arithmetic, logic and index-register instructions (41_alu.md R131 to R145). The operands are read before
anything is written (R133). -/
namespace Sys2Proof.Machine

/-- `LD Vx, kk` (R131). -/
def execLdImm (x : Nibble) (kk : Byte) (s : State) : Host.Outcome State Fault Refusal := .next (s.setReg x kk)

/-- `ADD Vx, kk` (R132): no flag. -/
def execAddImm (x : Nibble) (kk : Byte) (s : State) : Host.Outcome State Fault Refusal :=
  .next (s.setReg x (addResult (s.reg x) kk))

/-- `LD Vx, Vy` (R134). -/
def execLdReg (x y : Nibble) (s : State) : Host.Outcome State Fault Refusal := .next (s.setReg x (s.reg y))

/-- `OR Vx, Vy` (R135): no flag. -/
def execOrReg (x y : Nibble) (s : State) : Host.Outcome State Fault Refusal :=
  .next (s.setReg x (s.reg x ||| s.reg y))

/-- `AND Vx, Vy` (R136): no flag. -/
def execAndReg (x y : Nibble) (s : State) : Host.Outcome State Fault Refusal :=
  .next (s.setReg x (s.reg x &&& s.reg y))

/-- `XOR Vx, Vy` (R137): no flag. -/
def execXorReg (x y : Nibble) (s : State) : Host.Outcome State Fault Refusal :=
  .next (s.setReg x (s.reg x ^^^ s.reg y))

/-- `ADD Vx, Vy` (R138): VF is the carry. -/
def execAddReg (x y : Nibble) (s : State) : Host.Outcome State Fault Refusal :=
  .next (s.writeResultAndFlag x (addResult (s.reg x) (s.reg y)) (addCarry (s.reg x) (s.reg y)))

/-- `SUB Vx, Vy` (R139): VF is no-borrow. -/
def execSubReg (x y : Nibble) (s : State) : Host.Outcome State Fault Refusal :=
  .next (s.writeResultAndFlag x (subResult (s.reg x) (s.reg y)) (subNoBorrow (s.reg x) (s.reg y)))

/-- `SHR Vx, Vy` (R140): the source is Vy, VF the bit shifted out. -/
def execShrReg (x y : Nibble) (s : State) : Host.Outcome State Fault Refusal :=
  .next (s.writeResultAndFlag x (shrResult (s.reg y)) (shrFlag (s.reg y)))

/-- `SUBN Vx, Vy` (R141): `b - a`, VF is no-borrow. -/
def execSubnReg (x y : Nibble) (s : State) : Host.Outcome State Fault Refusal :=
  .next (s.writeResultAndFlag x (subResult (s.reg y) (s.reg x)) (subNoBorrow (s.reg y) (s.reg x)))

/-- `SHL Vx, Vy` (R142): the source is Vy, VF the bit shifted out. -/
def execShlReg (x y : Nibble) (s : State) : Host.Outcome State Fault Refusal :=
  .next (s.writeResultAndFlag x (shlResult (s.reg y)) (shlFlag (s.reg y)))

/-- `RND Vx, kk` (R143): the cycle's draw, masked. -/
def execRnd (x : Nibble) (kk : Byte) (s : State) : Host.Outcome State Fault Refusal :=
  .next (s.setReg x (s.inputs.rnd &&& kk))

/-- `LD I, nnn` (R144). -/
def execLdI (nnn : Imm12) (s : State) : Host.Outcome State Fault Refusal := .next { s with i := addressOf nnn }

/-- `ADD I, Vx` (R145): a sum above 0xFFFF is a fault, and no flag is written. -/
def execAddI (x : Nibble) (s : State) : Host.Outcome State Fault Refusal :=
  .next (if s.indexSum x > 0xFFFF then s.takeFault (.indexOverflow (s.indexSum x))
    else { s with i := BitVec.ofNat 16 (s.indexSum x) })

end Sys2Proof.Machine
end

