-- ==== Sys2Proof/Machine/Control.lean ====
section
/-! DEFINITION. The control-flow instructions (40_control_flow.md R100 to R110). Each meaning acts on the state the fetch left,
with `pc = A + 2` (30_encoding.md R90). -/
namespace Sys2Proof.Machine

/-- `JP nnn` (R100). -/
def execJp (nnn : Imm12) (s : State) : Host.Outcome State Fault Refusal := .next { s with pc := addressOf nnn }

/-- `CALL nnn` (R101): the fault at the depth limit comes before the push. -/
def execCall (nnn : Imm12) (s : State) : Host.Outcome State Fault Refusal :=
  .next (if s.stackFull then s.takeFault (.stackOverflow s.stack.length)
    else { s with stack := s.pc :: s.stack, pc := addressOf nnn })

/-- `RET` (R102). -/
def execRet (s : State) : Host.Outcome State Fault Refusal :=
  .next (match s.stack with
    | [] => s.takeFault .stackUnderflow
    | top :: rest => { s with pc := top, stack := rest })

/-- `JP V0, nnn` (R103). -/
def execJpV0 (nnn : Imm12) (s : State) : Host.Outcome State Fault Refusal := .next { s with pc := s.indexedTarget nnn }

/-- `SE Vx, kk` (R105). -/
def execSeImm (x : Nibble) (kk : Byte) (s : State) : Host.Outcome State Fault Refusal :=
  .next (s.skipIf (s.reg x == kk))

/-- `SNE Vx, kk` (R106). -/
def execSneImm (x : Nibble) (kk : Byte) (s : State) : Host.Outcome State Fault Refusal :=
  .next (s.skipIf (s.reg x != kk))

/-- `SE Vx, Vy` (R107). -/
def execSeReg (x y : Nibble) (s : State) : Host.Outcome State Fault Refusal :=
  .next (s.skipIf (s.reg x == s.reg y))

/-- `SNE Vx, Vy` (R108). -/
def execSneReg (x y : Nibble) (s : State) : Host.Outcome State Fault Refusal :=
  .next (s.skipIf (s.reg x != s.reg y))

/-- `SKP Vx` (R109). -/
def execSkp (x : Nibble) (s : State) : Host.Outcome State Fault Refusal := .next (s.skipIf (s.keyHeld x))

/-- `SKNP Vx` (R110). -/
def execSknp (x : Nibble) (s : State) : Host.Outcome State Fault Refusal := .next (s.skipIf (!s.keyHeld x))

end Sys2Proof.Machine
end

