-- ==== Sys2Proof/Machine/Display.lean ====
section
/-! DEFINITION. The display instructions (43_display.md R200 to R204). -/
namespace Sys2Proof.Machine

/-- `CLS` (R200). -/
def execCls (s : State) : Host.Outcome State Fault Refusal := .next { s with fb := Frame.clear }.notifyDisplay

/-- `VF-update(coll)` of a DRW of height `n` (R203). At `n = 0` VF is unchanged whatever `DRW_CLEARS_VF` is (R201's corner case,
decision D18, conflict C11; the pseudocode would clear it under `DRW_CLEARS_VF = true`: DEDUCED, log entry 18). -/
def State.updateDrawFlag (s : State) (n : Nibble) (coll : Bool) : State := if n = 0 then s else s.updateCollision coll

/-- The effect of a DRW whose rows may be read: the framebuffer, VF, the notification (R201, R203, R204). The rows and the
origin are read before anything is written. -/
def State.drawSprite (s : State) (x y n : Nibble) : State :=
  let drawn := plotRows (s.reg x).toNat (s.reg y).toNat (s.loadBytes s.base n.toNat) (s.fb, false)
  (({ s with fb := drawn.1 } : State).updateDrawFlag n drawn.2).notifyDisplay

/-- `DRW Vx, Vy, n` (R201): with `n = 0` nothing is read or checked. -/
def execDrw (x y n : Nibble) (s : State) : Host.Outcome State Fault Refusal :=
  .next (s.afterCheck .read s.base n.toNat (fun s => s.drawSprite x y n))

end Sys2Proof.Machine
end

