-- ==== Sys2Proof/Machine/Transfer.lean ====
section
/-! DEFINITION. The font, BCD, block-transfer, timer and key instructions (42_memory_timers_keys.md R171 to R178). None of them
but LD F, Vx changes `I` (R170). -/
namespace Sys2Proof.Machine

/-- `LD F, Vx` (R171). -/
def execLdF (x : Nibble) (s : State) : Host.Outcome State Fault Refusal := .next { s with i := s.glyphAddress x }

/-- `LD B, Vx` (R172). -/
def execLdB (x : Nibble) (s : State) : Host.Outcome State Fault Refusal :=
  .next (s.afterCheck .write s.base 3 (fun s => s.storeBytes s.base (decimalDigits (s.reg x))))

/-- `LD [I], Vx` (R173). -/
def execStRegs (x : Nibble) (s : State) : Host.Outcome State Fault Refusal :=
  .next (s.afterCheck .write s.base (x.toNat + 1) (fun s => s.storeBytes s.base (s.regsUpTo x)))

/-- `LD Vx, [I]` (R174). -/
def execLdRegs (x : Nibble) (s : State) : Host.Outcome State Fault Refusal :=
  .next (s.afterCheck .read s.base (x.toNat + 1)
    (fun s => { s with v := fillRegs (s.loadBytes s.base (x.toNat + 1)) 0 s.v }))

/-- `LD Vx, DT` (R175). -/
def execLdFromDT (x : Nibble) (s : State) : Host.Outcome State Fault Refusal := .next (s.setReg x s.dt)

/-- `LD DT, Vx` (R176). -/
def execLdDT (x : Nibble) (s : State) : Host.Outcome State Fault Refusal := .next { s with dt := s.reg x }

/-- `LD ST, Vx` (R177). -/
def execLdST (x : Nibble) (s : State) : Host.Outcome State Fault Refusal := .next { s with st := s.reg x }

/-- `LD Vx, K` (R178): the core suspends; the host's `resume` completes the instruction. -/
def execLdKey (x : Nibble) (s : State) : Host.Outcome State Fault Refusal := .next { s with run := .awaitingKey x }

end Sys2Proof.Machine
end

