-- ==== Sys2Proof/Machine/Cycle.lean ====
section
/-! DEFINITION. The fetch, the cycle and the host's other transactions (30_encoding.md R88 to R92; 60_exceptions.md R240 to R248;
70_reset_and_hazards.md R260, R264), and one step of the machine: the host's next transaction. -/
namespace Sys2Proof.Machine

/-- The outcome a cycle returns, or the status the core shows between transactions (30_encoding.md R88). -/
inductive CycleOutcome where
  | ok
  | needsInput (x : Nibble)
  | fault (f : FaultRecord)
  deriving DecidableEq, Repr

/-- The outcome of the latest transaction: it is what `run` says (30_encoding.md R90; 60_exceptions.md R231, R246). -/
def State.outcome (s : State) : CycleOutcome :=
  match s.run with
  | .running => .ok
  | .awaitingKey x => .needsInput x
  | .halted f => .fault f

/-- `fetch(A)` (30_encoding.md R91): alignment, then range, then the big-endian word. -/
def State.fetch (s : State) : Except FaultKind Word :=
  if s.pc.toNat % 2 = 1 then .error (.pcMisaligned s.pc)
  else match checkAccess .read s.pc.toNat 2 with
    | some fault => .error fault
    | none => .ok (wordOfBytes (s.readByte s.pc.toNat) (s.readByte (s.pc.toNat + 1)))

/-- The end of a cycle: it ticks unless it faulted or suspended (30_encoding.md R90, R92). -/
def State.endCycle (s : State) : State :=
  match s.run with
  | .running => s.tick
  | .awaitingKey _ => s
  | .halted _ => s

/-- The cycle of a running core once its inputs are latched: fetch at `A = pc`, advance `pc`, decode, execute, tick
(30_encoding.md R90). -/
def State.runInstr (s : State) : Host.Outcome State Fault Refusal :=
  match s.fetch with
  | .error fault => .next (({ s with cur := { addr := s.pc, op := none } } : State).takeFault fault)
  | .ok op =>
    let fetched : State := { s with cur := { addr := s.pc, op := some op }, pc := s.pc + 2 }
    match decode op with
    | .error _ => .next (fetched.takeFault (.decodeFailure op))
    | .ok ins =>
      match exec ins fetched with
      | .next t => .next t.endCycle
      | .fault r => .fault r
      | .refused r => .refused r

/-- `cycle(pressed, rnd)` (30_encoding.md R90). A suspended or halted core changes nothing and emits nothing (60_exceptions.md
R231, R246). -/
def State.cycle (inputs : CycleInputs) (s : State) : Host.Outcome State Fault Refusal :=
  match s.run with
  | .halted _ => .next { s with events := [] }
  | .awaitingKey _ => .next { s with events := [] }
  | .running => ({ s with events := [], inputs := inputs } : State).runInstr

/-- `resume(k)` (60_exceptions.md R245). -/
def State.resume (k : Nat) (s : State) : Host.Outcome State Fault Refusal :=
  match s.run with
  | .awaitingKey x =>
    if k ≤ 15 then .next ({ s with events := [], run := .running }.setReg x (BitVec.ofNat 8 k)).tick
    else .refused .resumeRefused
  | .running => .refused .resumeRefused
  | .halted _ => .refused .resumeRefused

/-- `reset()` (70_reset_and_hazards.md R260, R261): every piece of state to its reset value, whatever it was. The configuration
and the host's side (the transactions to come, the count of free inputs) are not the core's state and stay (DESIGN CHOICE,
log entry 13). -/
def State.doReset (s : State) : State :=
  { State.resetWith s.cfg with inbox := s.inbox, freeCycles := s.freeCycles }

/-- `load(image)` (70_reset_and_hazards.md R264): defined only on the state reset produces (DESIGN CHOICE of the
comparison, log entry 9). -/
def State.load (image : List Byte) (s : State) : Host.Outcome State Fault Refusal :=
  if s = s.doReset then
    if image.length ≤ 3584 then .next (s.storeBytes 0x200 image) else .refused .imageTooLong
  else .refused .loadNotAfterReset

/-- `launch(image)` (70_reset_and_hazards.md R264): the state a program starts from, under a configuration. -/
def launch (cfg : Config) (image : List Byte) : Host.Outcome State Fault Refusal := (State.resetWith cfg).load image

/-- The inputs of a cycle that the host invokes without naming them: free values (60_exceptions.md R249; log entry 4). -/
def freeInputs (n : Nat) : CycleInputs where
  pressed := Vector.ofFn (fun k : Fin 16 => Config.freePressed n (BitVec.ofFin k))
  rnd := Config.freeRnd n

/-- Perform one of the host's transactions (60_exceptions.md R240). -/
def State.perform (op : HostOp) (s : State) : Host.Outcome State Fault Refusal :=
  match op with
  | .cycle inputs => s.cycle inputs
  | .resume k => s.resume k
  | .reset => .next s.doReset
  | .load image => s.load image

/-- The host's next transaction: the first of `inbox`, or a cycle with free inputs when there is none (60_exceptions.md R249). -/
def State.transact (s : State) : Host.Outcome State Fault Refusal :=
  match s.inbox with
  | [] => ({ s with freeCycles := s.freeCycles + 1 } : State).cycle (freeInputs s.freeCycles)
  | op :: rest => ({ s with inbox := rest } : State).perform op

/-- A program's word placed where the next cycle fetches it (log entry 6): its two bytes, high byte first, at `pc`. At a `pc`
no fetch can read (odd, or above 0xFFE) nothing is placed. -/
def State.placeWord (s : State) (w : Word) : State :=
  if s.pc.toNat % 2 = 0 ∧ s.pc.toNat ≤ 0xFFE then s.storeBytes s.pc.toNat [highByte w, lowByte w] else s

end Sys2Proof.Machine
end

