-- ==== Sys2Proof/Machine/Step.lean ====
section
/-! DEFINITION. One step of the machine: the host's next transaction with the core (60_exceptions.md R240). -/
namespace Sys2Proof.Machine

/-- One step (60_exceptions.md R240, R249). -/
def step (s : State) : Host.Outcome State Fault Refusal := s.transact

/-- `s` with the instruction whose bits are `w` (numbered as spec/opcode_table.json numbers them) where the next step fetches:
its bytes at `pc`, the core running, and the host's next transaction a cycle (log entry 6). -/
def State.withFetchWord (s : State) (nbits w : Nat) : State :=
  { s.placeWord (tableWord nbits w) with
    run := .running
    inbox := s.inbox.dropWhile (fun op => !op.isCycle) }

end Sys2Proof.Machine
end

