-- ==== Sys2Proof/Safety.lean ====
section
/-! DEFINITION. The words the statements use: the parts of the state and what it is to keep them (frames), halting with a fault,
the invariant of the machine, the end of a run (70_reset_and_hazards.md R273). -/
namespace Sys2Proof.Machine

/-- The parts of the state, one per field. -/
inductive Part where
  | mem | regs | i | pc | stack | dt | st | fb | alert | run
  | cfg | inbox | freeCycles | inputs | cur | events
  deriving DecidableEq, Repr

/-- The part reads the same in `t` as in `s`: every byte of memory, every register, every cell of the framebuffer. -/
def Part.kept (s t : State) : Part → Prop
  | .mem => ∀ a, t.readByte a = s.readByte a
  | .regs => ∀ r, t.reg r = s.reg r
  | .i => t.i = s.i
  | .pc => t.pc = s.pc
  | .stack => t.stack = s.stack
  | .dt => t.dt = s.dt
  | .st => t.st = s.st
  | .fb => ∀ x y, t.fb.cell x y = s.fb.cell x y
  | .alert => t.alert = s.alert
  | .run => t.run = s.run
  | .cfg => t.cfg = s.cfg
  | .inbox => t.inbox = s.inbox
  | .freeCycles => t.freeCycles = s.freeCycles
  | .inputs => t.inputs = s.inputs
  | .cur => t.cur = s.cur
  | .events => t.events = s.events

/-- Every part but those listed is kept. -/
def KeepsAllBut (parts : List Part) (s t : State) : Prop := ∀ p, p ∉ parts → p.kept s t

/-- Every register but those listed is kept. -/
def RegsKeptBut (rs : List Nibble) (s t : State) : Prop := ∀ r, r ∉ rs → t.reg r = s.reg r

/-- Every byte outside `a .. a+k-1` reads as before. -/
def BytesKeptOutside (a k : Nat) (s t : State) : Prop := ∀ b, b < a ∨ a + k ≤ b → t.readByte b = s.readByte b

/-- From the state `s` that the fetch left, the core takes the fault `k` in `t` (60_exceptions.md R228, R230): it halts with the
record `(k, A, op)`, `pc` is `A` again, no event is kept, and nothing else changes. -/
def HaltsWith (k : FaultKind) (s t : State) : Prop :=
  t.run = .halted { kind := k, pc := s.cur.addr, op := s.cur.op } ∧ t.pc = s.cur.addr ∧ t.events = [] ∧
    KeepsAllBut [.run, .pc, .events] s t

/-- The parts that are the model's own record of the host's side and of the cycle in progress (log entries 2 to 5). -/
def ownParts : List Part := [.inbox, .freeCycles, .inputs, .cur, .events]

/-- Change the next state of an outcome, if it has one. -/
def mapNext (f : State → State) : Host.Outcome State Fault Refusal → Host.Outcome State Fault Refusal
  | .next t => .next (f t)
  | .fault r => .fault r
  | .refused r => .refused r

/-- The state the fetch of `op` leaves: `pc = A + 2`, the word and its address recorded (30_encoding.md R90). -/
def State.fetched (s : State) (op : Word) : State :=
  { s with cur := { addr := s.pc, op := some op }, pc := s.pc + 2 }

/-- The sprite of `DRW Vx, Vy, n` sets the pixel at column `cx`, row `cy` (43_display.md R201): the pixel lies in the eight
columns from `V[x]` and the `n` rows from `V[y]`, and its bit, most significant first, is set in its row's byte. -/
def State.spriteBit (s : State) (x y n : Nibble) (cx cy : Nat) : Bool :=
  decide ((s.reg x).toNat ≤ cx ∧ cx < (s.reg x).toNat + 8 ∧ (s.reg y).toNat ≤ cy ∧ cy < (s.reg y).toNat + n.toNat) &&
    (s.readByte (s.i.toNat + (cy - (s.reg y).toNat))).getLsbD (7 - (cx - (s.reg x).toNat))

/-- Some cell of the grid is set and its sprite pixel is set too: the draw turns it off (43_display.md R203). -/
def State.collides (s : State) (x y n : Nibble) : Prop :=
  ∃ cx cy, cx ≤ 63 ∧ cy ≤ 31 ∧ s.spriteBit x y n cx cy = true ∧ s.fb.cell cx cy = true

/-- The invariant of the machine. -/
structure State.Inv (s : State) : Prop where
  /-- Memory is in canonical form and lies in 0x000..0xFFF (10_state.md R35). -/
  mem_wf : s.mem.wf (resetByte s.cfg) = true
  /-- The reserved area holds its reset contents (20_memory.md R57; 10_state.md R36). -/
  reserved_kept : ∀ a, a < 0x200 → s.readByte a = resetByte s.cfg a
  /-- The largest value anything writes to `pc` is 0x10FE (10_state.md R27). -/
  pc_le : s.pc.toNat ≤ 0x10FE
  /-- A return address is even and at most 0x1000 (40_control_flow.md R102). -/
  stack_even : ∀ e ∈ s.stack, e.toNat % 2 = 0 ∧ e.toNat ≤ 0x1000
  /-- The stack holds at most `STACK_LIMIT` entries (10_state.md R29). -/
  stack_le : ∀ limit, s.cfg.stackLimit = some limit → s.stack.length ≤ limit
  /-- In a halted core `pc` is the address of the instruction that faulted (60_exceptions.md R228, R230). -/
  halted_pc : ∀ f, s.run = .halted f → f.pc = s.pc

/-- The run is stopped: the core runs and its next instruction is a jump to itself (70_reset_and_hazards.md R273). -/
def State.Stopped (s : State) : Prop :=
  s.run = .running ∧ s.fetch = .ok (0x1000#16 ||| s.pc)

/-- The run has ended badly: the core is halted (70_reset_and_hazards.md R273). -/
def State.EndedBadly (s : State) : Prop := ∃ f, s.run = .halted f

end Sys2Proof.Machine
end

