-- ==== Sys2Proof/Certificates/Slice0/Obligations.lean ====
section
/-! DEFINITION. The statements for the provers, each a rule of the spec or a property drawn from its rules. -/
open Sys2Proof Sys2Proof.Machine

/- ## The encoding (30_encoding.md) -/

/-- Decoding an encoded instruction gives it back, for every instruction with every operand (R80, R81). -/
def Obligations.DecodeOfEncode : Prop := ∀ i : Instr, decode (encode i) = .ok i

/-- Encoding a decoded word gives the word back, but for the ignored nibble of families 5 and 9, which the encoder writes as 0
(R79 to R81). -/
def Obligations.EncodeOfDecode : Prop :=
  ∀ (w : Word) (i : Instr), decode w = .ok i →
    encode i = if w.toNat / 4096 = 5 ∨ w.toNat / 4096 = 9 then w - BitVec.ofNat 16 (w.toNat % 16) else w

/-- The decoder accepts exactly the words of the opcode map, each as the instruction of its row, and no word is in two rows
(R80, R81). -/
def Obligations.DecoderFollowsOpcodeMap : Prop :=
  ∀ w : Word,
    (∀ i, decode w = .ok i → i.row.matchesWord w = true) ∧
    ((∃ i, decode w = .ok i) ↔ legalWord w = true) ∧
    (∀ i j : Instr, i.row.matchesWord w = true → j.row.matchesWord w = true → i.row = j.row)

/-- A word is a decode failure, carrying the word itself, exactly when it is one of the illegal words, and a running core that fetches
one halts with that failure and the word in its record (R83, R221). -/
def Obligations.IllegalWordsFailToDecode : Prop :=
  (∀ w : Word,
    (∃ i, decode w = .ok i) ∧ legalWord w = true ∨ decode w = .error (.decodeFailure w) ∧ legalWord w = false ∧
      (w.toNat / 4096 = 0 ∧ w ≠ 0x00E0#16 ∧ w ≠ 0x00EE#16 ∨
       w.toNat / 4096 = 8 ∧ w.toNat % 16 ∈ [8, 9, 0xA, 0xB, 0xC, 0xD, 0xF] ∨
       w.toNat / 4096 = 0xE ∧ w.toNat % 256 ∉ [0x9E, 0xA1] ∨
       w.toNat / 4096 = 0xF ∧ w.toNat % 256 ∉ [0x07, 0x0A, 0x15, 0x18, 0x1E, 0x29, 0x33, 0x55, 0x65])) ∧
  (∀ (s : State) (inputs : CycleInputs) (w : Word), s.run = .running → s.fetch = .ok w → legalWord w = false →
    ∃ t, s.cycle inputs = .next t ∧ t.run = .halted { kind := .decodeFailure w, pc := s.pc, op := some w })

/-- Family 0 keys on all twelve bits: only 0x00E0 and 0x00EE decode (R75, R86). -/
def Obligations.FamilyZeroIsClsAndRet : Prop :=
  ∀ nnn : Imm12, decode (0x0#4 ++ nnn) =
    if nnn = 0x0E0#12 then .ok .cls
    else if nnn = 0x0EE#12 then .ok .ret
    else .error (.decodeFailure (0x0#4 ++ nnn))

/-- Family 8 keys on the low nibble (R76). -/
def Obligations.FamilyEightKeys : Prop :=
  ∀ x y n : Nibble, decode (0x8#4 ++ x ++ y ++ n) =
    if n = 0#4 then .ok (.ldReg x y) else if n = 1#4 then .ok (.orReg x y) else if n = 2#4 then .ok (.andReg x y)
    else if n = 3#4 then .ok (.xorReg x y) else if n = 4#4 then .ok (.addReg x y) else if n = 5#4 then .ok (.subReg x y)
    else if n = 6#4 then .ok (.shrReg x y) else if n = 7#4 then .ok (.subnReg x y) else if n = 0xE#4 then .ok (.shlReg x y)
    else .error (.decodeFailure (0x8#4 ++ x ++ y ++ n))

/-- Families E and F key on the low byte (R77, R78). -/
def Obligations.FamiliesEAndFKeys : Prop :=
  ∀ (x : Nibble) (kk : Byte),
    (decode (0xE#4 ++ x ++ kk) =
      if kk = 0x9E#8 then .ok (.skp x) else if kk = 0xA1#8 then .ok (.sknp x)
      else .error (.decodeFailure (0xE#4 ++ x ++ kk))) ∧
    (decode (0xF#4 ++ x ++ kk) =
      if kk = 0x07#8 then .ok (.ldFromDT x) else if kk = 0x0A#8 then .ok (.ldKey x) else if kk = 0x15#8 then .ok (.ldDT x)
      else if kk = 0x18#8 then .ok (.ldST x) else if kk = 0x1E#8 then .ok (.addI x) else if kk = 0x29#8 then .ok (.ldF x)
      else if kk = 0x33#8 then .ok (.ldB x) else if kk = 0x55#8 then .ok (.stRegs x)
      else if kk = 0x65#8 then .ok (.ldRegs x) else .error (.decodeFailure (0xF#4 ++ x ++ kk)))

/-- `5xyn` is SE Vx, Vy and `9xyn` is SNE Vx, Vy for every `n` (R79). -/
def Obligations.IgnoredNibbleOfRegisterSkips : Prop :=
  ∀ x y n : Nibble, decode (0x5#4 ++ x ++ y ++ n) = .ok (.seReg x y) ∧ decode (0x9#4 ++ x ++ y ++ n) = .ok (.sneReg x y)

/-- A word of each of the 16 families, written out from the opcode map, decodes to the instruction it stands for, and 01E0 to none
(R80). -/
def Obligations.SampleWordsDecode : Prop :=
  decode 0x00EE#16 = .ok .ret ∧ decode 0x1234#16 = .ok (.jp 0x234#12) ∧ decode 0x2300#16 = .ok (.call 0x300#12) ∧
  decode 0x322A#16 = .ok (.seImm 2#4 0x2A#8) ∧ decode 0x422B#16 = .ok (.sneImm 2#4 0x2B#8) ∧
  decode 0x5127#16 = .ok (.seReg 1#4 2#4) ∧ decode 0x6A7B#16 = .ok (.ldImm 0xA#4 0x7B#8) ∧
  decode 0x7010#16 = .ok (.addImm 0#4 0x10#8) ∧ decode 0x8217#16 = .ok (.subnReg 2#4 1#4) ∧
  decode 0x9120#16 = .ok (.sneReg 1#4 2#4) ∧ decode 0xA300#16 = .ok (.ldI 0x300#12) ∧
  decode 0xB300#16 = .ok (.jpV0 0x300#12) ∧
  decode 0xC30F#16 = .ok (.rnd 3#4 0x0F#8) ∧ decode 0xD125#16 = .ok (.drw 1#4 2#4 5#4) ∧
  decode 0xE3A1#16 = .ok (.sknp 3#4) ∧ decode 0xFA33#16 = .ok (.ldB 0xA#4) ∧
  decode 0x01E0#16 = .error (.decodeFailure 0x01E0#16)

/- ## The cycle, the fetch and the tick (30_encoding.md; 20_memory.md) -/

/-- A step runs the decoded instruction: when the host's next transaction is a cycle (named, or with free inputs when none is
named), the core runs, `pc` can be fetched and the word there decodes to `i`, the step is `exec i` on the fetched state, then the
end of the cycle (R90; the inbox, the latched inputs and the free inputs are the model's, log entries 2 to 4). -/
def Obligations.StepRunsDecodedInstruction : Prop :=
  ∀ (s s' : State) (inputs : CycleInputs) (i : Instr),
    ((∃ rest, s.inbox = .cycle inputs :: rest ∧ s' = { s with inbox := rest, events := [], inputs := inputs }) ∨
      (s.inbox = [] ∧ inputs = freeInputs s.freeCycles ∧
        s' = { s with freeCycles := s.freeCycles + 1, events := [], inputs := inputs })) →
    s.run = .running → s.pc.toNat % 2 = 0 → s.pc.toNat ≤ 0xFFE →
    decode (wordOfBytes (s.readByte s.pc.toNat) (s.readByte (s.pc.toNat + 1))) = .ok i →
    step s = mapNext State.endCycle
      (exec i (s'.fetched (wordOfBytes (s.readByte s.pc.toNat) (s.readByte (s.pc.toNat + 1)))))

/-- The fetch: an odd `pc` is misaligned; an even one above 0xFFE is out of range and names itself; every other reads the byte
at `pc` as the high byte and the next as the low byte (R91, R52, R56). -/
def Obligations.FetchChecksAndReadsBigEndian : Prop :=
  ∀ s : State,
    (s.pc.toNat % 2 = 1 → s.fetch = .error (.pcMisaligned s.pc)) ∧
    (s.pc.toNat % 2 = 0 → 0x1000 ≤ s.pc.toNat → s.fetch = .error (.addressOutOfRange s.pc.toNat)) ∧
    (s.pc.toNat % 2 = 0 → s.pc.toNat < 0x1000 →
      ∃ w : Word, s.fetch = .ok w ∧
        w.toNat = 256 * (s.readByte s.pc.toNat).toNat + (s.readByte (s.pc.toNat + 1)).toNat)

/-- The access check: it passes when every address is at most 0xFFF and, for a write, at least 0x200; else the first address
that fails decides the fault, out of range before reserved (R55). -/
def Obligations.AccessCheckFindsFirstFailure : Prop :=
  ∀ (kind : AccessKind) (a k : Nat),
    (checkAccess kind a k = none ↔ ∀ b, a ≤ b → b < a + k → b ≤ 0xFFF ∧ (kind = .write → 0x200 ≤ b)) ∧
    (∀ b, a ≤ b → b < a + k → (∀ c, a ≤ c → c < b → c ≤ 0xFFF ∧ (kind = .write → 0x200 ≤ c)) →
      (0xFFF < b → checkAccess kind a k = some (.addressOutOfRange b)) ∧
      (b ≤ 0xFFF → kind = .write → b < 0x200 → checkAccess kind a k = some (.reservedWrite b)))

/-- The first three faults of a cycle, in their order of priority: a misaligned `pc`, an out-of-range `pc`, an illegal word. Each
halts the core with its record, the word absent for the two that the fetch raises, and changes nothing else but the model's own
record (R228, R229). -/
def Obligations.CycleFaultsBeforeExecution : Prop :=
  ∀ (s : State) (inputs : CycleInputs), s.run = .running →
    (s.pc.toNat % 2 = 1 → ∃ t, s.cycle inputs = .next t ∧
      t.run = .halted { kind := .pcMisaligned s.pc, pc := s.pc, op := none } ∧ KeepsAllBut (.run :: ownParts) s t) ∧
    (s.pc.toNat % 2 = 0 → 0x1000 ≤ s.pc.toNat → ∃ t, s.cycle inputs = .next t ∧
      t.run = .halted { kind := .addressOutOfRange s.pc.toNat, pc := s.pc, op := none } ∧
      KeepsAllBut (.run :: ownParts) s t) ∧
    (∀ op, s.fetch = .ok op → legalWord op = false → ∃ t, s.cycle inputs = .next t ∧
      t.run = .halted { kind := .decodeFailure op, pc := s.pc, op := some op } ∧ KeepsAllBut (.run :: ownParts) s t)

/-- The tick: each timer counts down by 1 and never below 0, and `alert` says whether `ST` was above 0 before the decrement or is
above 0 after it, as `ALERT_SAMPLE` says. It happens once at the end of a cycle that completes, not in one that suspends or
faults, and once when a key wait is resumed (R92). -/
def Obligations.TickOncePerCompletedCycle : Prop :=
  (∀ s : State, s.tick.dt.toNat = s.dt.toNat - 1 ∧ s.tick.st.toNat = s.st.toNat - 1 ∧
    (s.cfg.alertSample = .before → (s.tick.alert = true ↔ 0 < s.st.toNat)) ∧
    (s.cfg.alertSample = .after → (s.tick.alert = true ↔ 1 < s.st.toNat)) ∧
    KeepsAllBut [.dt, .st, .alert] s s.tick) ∧
  (∀ (s u : State) (inputs : CycleInputs) (op : Word) (i : Instr),
    s.run = .running → s.fetch = .ok op → decode op = .ok i →
    exec i (({ s with events := [], inputs := inputs } : State).fetched op) = .next u →
    (u.run = .running → s.cycle inputs = .next u.tick) ∧ (u.run ≠ .running → s.cycle inputs = .next u)) ∧
  (∀ (s : State) (x : Nibble) (k : Nat), s.run = .awaitingKey x → k ≤ 15 →
    ∃ t, s.resume k = .next t ∧ t.dt = s.tick.dt ∧ t.st = s.tick.st ∧ t.alert = s.tick.alert)

/-- Where a cycle that does not fault leaves `pc`; `A` is the address it fetched from, `s.pc`. A resumption does not change it (R25). -/
def Obligations.ProgramCounterAfterCycle : Prop :=
  (∀ (s t : State) (inputs : CycleInputs) (op : Word) (i : Instr),
    s.run = .running → s.fetch = .ok op → decode op = .ok i → s.cycle inputs = .next t → (∀ f, t.run ≠ .halted f) →
    t.pc = match i with
      | .jp nnn => BitVec.ofNat 16 nnn.toNat
      | .call nnn => BitVec.ofNat 16 nnn.toNat
      | .ret => s.stack.headD 0
      | .jpV0 nnn => BitVec.ofNat 16 (nnn.toNat + (s.reg 0).toNat)
      | .seImm x kk => if s.reg x = kk then s.pc + 4 else s.pc + 2
      | .sneImm x kk => if s.reg x ≠ kk then s.pc + 4 else s.pc + 2
      | .seReg x y => if s.reg x = s.reg y then s.pc + 4 else s.pc + 2
      | .sneReg x y => if s.reg x ≠ s.reg y then s.pc + 4 else s.pc + 2
      | .skp x => if inputs.pressed[(s.reg x).toNat]? = some true then s.pc + 4 else s.pc + 2
      | .sknp x => if inputs.pressed[(s.reg x).toNat]? ≠ some true then s.pc + 4 else s.pc + 2
      | _ => s.pc + 2) ∧
  (∀ (s t : State) (k : Nat), s.resume k = .next t → t.pc = s.pc)

/-- The fetch reads memory as it stands: a byte stored at `pc`, or at `pc + 1`, is the high byte, or the low byte, of the word
fetched (R62, R53). -/
def Obligations.FetchSeesStoredBytes : Prop :=
  ∀ (s : State) (b : Byte), s.pc.toNat % 2 = 0 → s.pc.toNat ≤ 0xFFE →
    (s.writeByte s.pc.toNat b).fetch = .ok (b ++ s.readByte (s.pc.toNat + 1)) ∧
    (s.writeByte (s.pc.toNat + 1) b).fetch = .ok (s.readByte s.pc.toNat ++ b)

/- ## Faults, the key wait, reset and load (60_exceptions.md; 70_reset_and_hazards.md) -/

/-- Faults are precise: a cycle that halts a running core keeps every register, `I`, `pc`, the stack, the timers, `alert`, memory
and the framebuffer as they were when it started, emits no event, records its own address, and reports its record (R230). -/
def Obligations.FaultsArePrecise : Prop :=
  ∀ (s t : State) (inputs : CycleInputs) (f : FaultRecord),
    s.run = .running → s.cycle inputs = .next t → t.run = .halted f →
    KeepsAllBut (.run :: ownParts) s t ∧ t.events = [] ∧ f.pc = s.pc ∧ t.outcome = .fault f

/-- The cause of each fault kind a cycle halts with, and what its record holds: the word fetched, absent for the two faults of the
fetch, and the value of its kind, such as the first address above 0xFFF. The depth of a stack overflow is the stack's, and it is the
limit itself in a state that meets the invariant (R220, R228). -/
def Obligations.EveryFaultHasItsCause : Prop :=
  ∀ (s t : State) (inputs : CycleInputs) (f : FaultRecord),
    s.run = .running → s.cycle inputs = .next t → t.run = .halted f →
    match f.kind with
    | .decodeFailure op => s.fetch = .ok op ∧ f.op = some op ∧ legalWord op = false
    | .stackUnderflow => s.fetch = .ok 0x00EE#16 ∧ f.op = some 0x00EE#16 ∧ s.stack = []
    | .addressOutOfRange a =>
        f.op = none ∧ s.pc.toNat % 2 = 0 ∧ 0x1000 ≤ s.pc.toNat ∧ a = s.pc.toNat ∨
        ∃ w, s.fetch = .ok w ∧ f.op = some w ∧ a = max s.i.toNat 0x1000 ∧
          ((∃ x y n, decode w = .ok (.drw x y n) ∧ n ≠ 0#4 ∧ 0x1000 < s.i.toNat + n.toNat) ∨
            (∃ x, decode w = .ok (.ldB x) ∧ 0x200 ≤ s.i.toNat ∧ 0xFFF < s.i.toNat + 2) ∨
            (∃ x, decode w = .ok (.stRegs x) ∧ 0x200 ≤ s.i.toNat ∧ 0xFFF < s.i.toNat + x.toNat) ∨
            ∃ x, decode w = .ok (.ldRegs x) ∧ 0xFFF < s.i.toNat + x.toNat)
    | .pcMisaligned p => f.op = none ∧ p = s.pc ∧ s.pc.toNat % 2 = 1
    | .reservedWrite a => a < 0x200 ∧ a = s.i.toNat ∧
        ∃ w, s.fetch = .ok w ∧ f.op = some w ∧ ∃ x, decode w = .ok (.ldB x) ∨ decode w = .ok (.stRegs x)
    | .indexOverflow n => 0xFFFF < n ∧
        ∃ w x, s.fetch = .ok w ∧ f.op = some w ∧ decode w = .ok (.addI x) ∧ n = s.i.toNat + (s.reg x).toNat
    | .stackOverflow depth =>
        (∃ w nnn, s.fetch = .ok w ∧ f.op = some w ∧ decode w = .ok (.call nnn)) ∧ depth = s.stack.length ∧
        ∃ limit, s.cfg.stackLimit = some limit ∧ limit ≤ depth ∧ (s.Inv → depth = limit)

/-- There is no return from a fault: a cycle on a halted core changes nothing, emits nothing and reports the same fault, and any
step after which the core is not halted with that record is a reset (R231). -/
def Obligations.OnlyResetLeavesHalted : Prop :=
  ∀ (s : State) (f : FaultRecord), s.run = .halted f →
    (∀ inputs, s.cycle inputs = .next { s with events := [] }) ∧ s.outcome = .fault f ∧
    (∀ t, step s = .next t → t.run ≠ .halted f → ∃ rest, s.inbox = .reset :: rest)

/-- The key wait is entered by LD Vx, K alone. A cycle on a suspended core changes nothing, the timers, `alert` and `pc` included, and
asks for input again; only a resumption or a reset ends the wait, and without them any number of cycles leaves the core waiting
(R238, R246). -/
def Obligations.SuspendedCoreWaits : Prop :=
  (∀ (s : State) (x : Nibble), s.run = .awaitingKey x →
    (∀ inputs, s.cycle inputs = .next { s with events := [] }) ∧ s.outcome = .needsInput x ∧
    (∀ t, step s = .next t → t.run ≠ .awaitingKey x → ∃ rest, s.inbox = .reset :: rest ∨ ∃ k, s.inbox = .resume k :: rest) ∧
    (∀ n, (∀ op ∈ s.inbox, op.isCycle = true) → ∃ t, Host.Core.run Sys2Proof.core n s = .next t ∧ KeepsAllBut ownParts s t)) ∧
  (∀ (s t : State) (x : Nibble), step s = .next t → t.run = .awaitingKey x → s.run = .awaitingKey x ∨
    s.run = .running ∧ ∃ op, s.fetch = .ok op ∧ decode op = .ok (.ldKey x))

/-- Resumption: in a key wait for Vx and with a key code of at most 15, V[x] gets the code, the core runs, `pc` stays, one tick
happens; in any other state, or with a code above 15, there is no transition. A step whose next transaction is the resumption
performs it (R245; the inbox is the model's, log entry 2). -/
def Obligations.ResumeDeliversKey : Prop :=
  ∀ (s : State) (k : Nat),
    (∀ x, s.run = .awaitingKey x → k ≤ 15 → ∃ t, s.resume k = .next t ∧ t.run = .running ∧ (t.reg x).toNat = k ∧
      RegsKeptBut [x] s t ∧ t.dt = s.tick.dt ∧ t.st = s.tick.st ∧ t.alert = s.tick.alert ∧ t.outcome = .ok ∧
      KeepsAllBut [.run, .regs, .dt, .st, .alert, .events] s t) ∧
    (15 < k → s.resume k = .refused .resumeRefused) ∧
    ((∀ x, s.run ≠ .awaitingKey x) → s.resume k = .refused .resumeRefused) ∧
    (∀ rest, s.inbox = .resume k :: rest → step s = ({ s with inbox := rest } : State).resume k)

/-- What reset leaves, for every configuration (R260). -/
def Obligations.ResetValues : Prop :=
  ∀ cfg : Config,
    (∀ a (h : a < 80), (State.resetWith cfg).readByte a = cfg.fontset[a]) ∧
    (∀ a, 80 ≤ a → (State.resetWith cfg).readByte a = 0) ∧
    (∀ r, (State.resetWith cfg).reg r = 0) ∧ (State.resetWith cfg).i = 0 ∧ (State.resetWith cfg).pc = 0x200 ∧
    (State.resetWith cfg).stack = [] ∧ (State.resetWith cfg).dt = 0 ∧ (State.resetWith cfg).st = 0 ∧
    (∀ x y, (State.resetWith cfg).fb.cell x y = false) ∧ (State.resetWith cfg).alert = false ∧
    (State.resetWith cfg).run = .running ∧ (State.resetWith cfg).events = []

/-- Reset from any state, a key wait and a halted core included, leaves exactly the reset state and no event (R260, R261); the
configuration stays, which is the model's choice (log entry 13). -/
def Obligations.ResetFromAnyState : Prop :=
  ∀ (s : State) (rest : List HostOp), s.inbox = .reset :: rest →
    ∃ t, step s = .next t ∧ KeepsAllBut ownParts (State.resetWith s.cfg) t ∧ t.events = []

/-- Program load: an image of at most 3584 bytes stands at 0x200 onward in the reset state and nothing else differs from it; a
longer one is refused, and so is a load on any state that reset did not produce. From every state, a step that resets and a step that
loads such an image leave that launch state, and a step whose next transaction is a load performs it (R264; the inbox and which
states a load accepts are the model's, log entries 2 and 9). -/
def Obligations.LoadPlacesImage : Prop :=
  (∀ (cfg : Config) (image : List Byte), image.length ≤ 3584 →
    ∃ t, launch cfg image = .next t ∧ (∀ j (h : j < image.length), t.readByte (0x200 + j) = image[j]) ∧
      BytesKeptOutside 0x200 image.length (State.resetWith cfg) t ∧ KeepsAllBut [.mem] (State.resetWith cfg) t) ∧
  (∀ (cfg : Config) (image : List Byte), 3584 < image.length → launch cfg image = .refused .imageTooLong) ∧
  (∀ (s : State) (image : List Byte), ¬ KeepsAllBut [.inbox, .freeCycles] (State.resetWith s.cfg) s →
    s.load image = .refused .loadNotAfterReset) ∧
  (∀ (s : State) (image : List Byte) (rest : List HostOp), s.inbox = .reset :: .load image :: rest → image.length ≤ 3584 →
    ∃ t, Host.Core.run Sys2Proof.core 2 s = .next t ∧ (∀ j (h : j < image.length), t.readByte (0x200 + j) = image[j]) ∧
      BytesKeptOutside 0x200 image.length (State.resetWith s.cfg) t ∧
      KeepsAllBut [.mem, .inbox, .freeCycles] (State.resetWith s.cfg) t ∧ t.inbox = rest) ∧
  (∀ (s : State) (image : List Byte) (rest : List HostOp), s.inbox = .load image :: rest →
    step s = ({ s with inbox := rest } : State).load image)

/-- From a stopped state every cycle changes only DT, ST and `alert`, and the state stays stopped (R273). -/
def Obligations.StoppedRunIdles : Prop :=
  ∀ (s : State) (inputs : CycleInputs), s.Stopped →
    ∃ t, s.cycle inputs = .next t ∧ t.Stopped ∧ KeepsAllBut ([.dt, .st, .alert] ++ ownParts) s t

/- ## Control flow (40_control_flow.md) -/

/-- JP nnn: `pc` is `nnn`, nothing else changes, and an odd target faults at the next fetch (R100). -/
def Obligations.JumpSetsPc : Prop :=
  ∀ (nnn : Imm12) (s : State),
    decode (0x1#4 ++ nnn) = .ok (.jp nnn) ∧
    ∃ t, exec (.jp nnn) s = .next t ∧ t.pc.toNat = nnn.toNat ∧ KeepsAllBut [.pc] s t ∧
      (nnn.toNat % 2 = 1 → t.fetch = .error (.pcMisaligned t.pc)) ∧ (nnn.toNat % 2 = 0 → ∃ w, t.fetch = .ok w)

/-- JP V0, nnn: `pc` is `nnn + V[0]`, not reduced; at the next fetch an odd target is misaligned and an even one of 0x1000 or more
is out of range (R103). -/
def Obligations.IndexedJumpSetsPc : Prop :=
  ∀ (nnn : Imm12) (s : State),
    decode (0xB#4 ++ nnn) = .ok (.jpV0 nnn) ∧
    ∃ t, exec (.jpV0 nnn) s = .next t ∧ t.pc.toNat = nnn.toNat + (s.reg 0).toNat ∧ KeepsAllBut [.pc] s t ∧
      (t.pc.toNat % 2 = 1 → t.fetch = .error (.pcMisaligned t.pc)) ∧
      (t.pc.toNat % 2 = 0 → 0x1000 ≤ t.pc.toNat → t.fetch = .error (.addressOutOfRange t.pc.toNat))

/-- CALL nnn: it pushes `pc`, the address after the CALL, and jumps; at the depth limit, and only there, it faults instead with the
depth (R101). -/
def Obligations.CallPushesReturnAddress : Prop :=
  ∀ (nnn : Imm12) (s : State),
    decode (0x2#4 ++ nnn) = .ok (.call nnn) ∧
    ((∀ limit, s.cfg.stackLimit = some limit → s.stack.length < limit) →
      ∃ t, exec (.call nnn) s = .next t ∧ t.stack = s.pc :: s.stack ∧ t.pc.toNat = nnn.toNat ∧
        KeepsAllBut [.pc, .stack] s t ∧ (nnn.toNat % 2 = 1 → t.fetch = .error (.pcMisaligned t.pc))) ∧
    (∀ limit, s.cfg.stackLimit = some limit → limit ≤ s.stack.length →
      ∃ t, exec (.call nnn) s = .next t ∧ HaltsWith (.stackOverflow s.stack.length) s t)

/-- RET: it pops the top entry into `pc`; on an empty stack it raises StackUnderflow, which no other instruction raises (R102,
R222). -/
def Obligations.ReturnPopsStack : Prop :=
  (∀ s : State,
    (∀ top rest, s.stack = top :: rest →
      ∃ t, exec .ret s = .next t ∧ t.pc = top ∧ t.stack = rest ∧ KeepsAllBut [.pc, .stack] s t) ∧
    (s.stack = [] → ∃ t, exec .ret s = .next t ∧ HaltsWith .stackUnderflow s t)) ∧
  (∀ (i : Instr) (s t : State) (f : FaultRecord), s.run = .running → exec i s = .next t → t.run = .halted f →
    f.kind = .stackUnderflow → i = .ret ∧ s.stack = [])

/-- A CALL and the RET after it come back to the address after the CALL with the stack as it was (R101, R102). -/
def Obligations.ReturnUndoesCall : Prop :=
  ∀ (nnn : Imm12) (s t u : State), s.stackFull = false → exec (.call nnn) s = .next t → u.stack = t.stack →
    ∃ w, exec .ret u = .next w ∧ w.pc = s.pc ∧ w.stack = s.stack ∧ KeepsAllBut [.pc, .stack] u w

/-- SE and SNE: the next instruction is skipped, by 2 bytes, exactly when the condition holds, and nothing else changes; the `n` nibble
of the register forms is ignored (R104 to R108). -/
def Obligations.ComparingSkips : Prop :=
  ∀ (x y n : Nibble) (kk : Byte) (s : State),
    decode (0x3#4 ++ x ++ kk) = .ok (.seImm x kk) ∧ decode (0x4#4 ++ x ++ kk) = .ok (.sneImm x kk) ∧
    decode (0x5#4 ++ x ++ y ++ n) = .ok (.seReg x y) ∧ decode (0x9#4 ++ x ++ y ++ n) = .ok (.sneReg x y) ∧
    (∃ t, exec (.seImm x kk) s = .next t ∧ KeepsAllBut [.pc] s t ∧ t.pc = if s.reg x = kk then s.pc + 2 else s.pc) ∧
    (∃ t, exec (.sneImm x kk) s = .next t ∧ KeepsAllBut [.pc] s t ∧ t.pc = if s.reg x = kk then s.pc else s.pc + 2) ∧
    (∃ t, exec (.seReg x y) s = .next t ∧ KeepsAllBut [.pc] s t ∧ t.pc = if s.reg x = s.reg y then s.pc + 2 else s.pc) ∧
    (∃ t, exec (.sneReg x y) s = .next t ∧ KeepsAllBut [.pc] s t ∧ t.pc = if s.reg x = s.reg y then s.pc else s.pc + 2)

/-- SKP and SKNP: the condition is that `V[x]` is at most 15 and that key is held, or its negation (R109, R110, R242). -/
def Obligations.KeySkips : Prop :=
  ∀ (x : Nibble) (s : State),
    (∃ t, exec (.skp x) s = .next t ∧ KeepsAllBut [.pc] s t ∧
      (∀ h : (s.reg x).toNat ≤ 15, t.pc = if s.inputs.pressed[(s.reg x).toNat] then s.pc + 2 else s.pc) ∧
      (15 < (s.reg x).toNat → t.pc = s.pc)) ∧
    (∃ t, exec (.sknp x) s = .next t ∧ KeepsAllBut [.pc] s t ∧
      (∀ h : (s.reg x).toNat ≤ 15, t.pc = if s.inputs.pressed[(s.reg x).toNat] then s.pc else s.pc + 2) ∧
      (15 < (s.reg x).toNat → t.pc = s.pc + 2))

/- ## Arithmetic, logic, index (41_alu.md) -/

/-- LD Vx, kk, LD Vx, Vy and ADD Vx, kk write V[x] alone, VF only when it is the destination; the sum wraps mod 256 (R131, R132, R134). -/
def Obligations.LoadsAndImmediateAdd : Prop :=
  ∀ (x y : Nibble) (kk : Byte) (s : State),
    decode (0x6#4 ++ x ++ kk) = .ok (.ldImm x kk) ∧ decode (0x8#4 ++ x ++ y ++ 0x0#4) = .ok (.ldReg x y) ∧
    decode (0x7#4 ++ x ++ kk) = .ok (.addImm x kk) ∧
    (∃ t, exec (.ldImm x kk) s = .next t ∧ t.reg x = kk ∧ RegsKeptBut [x] s t ∧ KeepsAllBut [.regs] s t) ∧
    (∃ t, exec (.ldReg x y) s = .next t ∧ t.reg x = s.reg y ∧ RegsKeptBut [x] s t ∧ KeepsAllBut [.regs] s t) ∧
    (∃ t, exec (.addImm x kk) s = .next t ∧ (t.reg x).toNat = ((s.reg x).toNat + kk.toNat) % 256 ∧
      RegsKeptBut [x] s t ∧ KeepsAllBut [.regs] s t)

/-- OR, AND and XOR act bit by bit on V[x] and write nothing else, VF included (R135 to R137). -/
def Obligations.LogicBitByBit : Prop :=
  ∀ (x y : Nibble) (s : State),
    decode (0x8#4 ++ x ++ y ++ 0x1#4) = .ok (.orReg x y) ∧ decode (0x8#4 ++ x ++ y ++ 0x2#4) = .ok (.andReg x y) ∧
    decode (0x8#4 ++ x ++ y ++ 0x3#4) = .ok (.xorReg x y) ∧
    (∃ t, exec (.orReg x y) s = .next t ∧ RegsKeptBut [x] s t ∧ KeepsAllBut [.regs] s t ∧
      ∀ k, k < 8 → (t.reg x).getLsbD k = ((s.reg x).getLsbD k || (s.reg y).getLsbD k)) ∧
    (∃ t, exec (.andReg x y) s = .next t ∧ RegsKeptBut [x] s t ∧ KeepsAllBut [.regs] s t ∧
      ∀ k, k < 8 → (t.reg x).getLsbD k = ((s.reg x).getLsbD k && (s.reg y).getLsbD k)) ∧
    (∃ t, exec (.xorReg x y) s = .next t ∧ RegsKeptBut [x] s t ∧ KeepsAllBut [.regs] s t ∧
      ∀ k, k < 8 → (t.reg x).getLsbD k = ((s.reg x).getLsbD k ^^ (s.reg y).getLsbD k))

/-- ADD Vx, Vy: the sum mod 256 goes to V[x] and the carry to VF; where V[x] is VF, the later of the two writes stays (R138, R133). -/
def Obligations.AddRegistersWithCarry : Prop :=
  ∀ (x y : Nibble) (s : State), decode (0x8#4 ++ x ++ y ++ 0x4#4) = .ok (.addReg x y) ∧
    ∃ t, exec (.addReg x y) s = .next t ∧
    RegsKeptBut [x, 15] s t ∧ KeepsAllBut [.regs] s t ∧
    (x ≠ 15#4 ∨ s.cfg.vfWriteOrder = .resultLast → (t.reg x).toNat = ((s.reg x).toNat + (s.reg y).toNat) % 256) ∧
    (x ≠ 15#4 ∨ s.cfg.vfWriteOrder = .flagLast →
      (t.reg 15).toNat = if 255 < (s.reg x).toNat + (s.reg y).toNat then 1 else 0)

/-- SUB is `V[x] - V[y]`, SUBN is `V[y] - V[x]`, mod 256, and VF is 1 when there is no borrow; where V[x] is VF, the later write
stays (R139, R141, R133). -/
def Obligations.SubtractWithNoBorrow : Prop :=
  ∀ (x y : Nibble) (s : State),
    decode (0x8#4 ++ x ++ y ++ 0x5#4) = .ok (.subReg x y) ∧ decode (0x8#4 ++ x ++ y ++ 0x7#4) = .ok (.subnReg x y) ∧
    (∃ t, exec (.subReg x y) s = .next t ∧ RegsKeptBut [x, 15] s t ∧ KeepsAllBut [.regs] s t ∧
      (x ≠ 15#4 ∨ s.cfg.vfWriteOrder = .resultLast →
        ((t.reg x).toNat : Int) = ((s.reg x).toNat - (s.reg y).toNat : Int) % 256) ∧
      (x ≠ 15#4 ∨ s.cfg.vfWriteOrder = .flagLast →
        (t.reg 15).toNat = if (s.reg y).toNat ≤ (s.reg x).toNat then 1 else 0)) ∧
    (∃ t, exec (.subnReg x y) s = .next t ∧ RegsKeptBut [x, 15] s t ∧ KeepsAllBut [.regs] s t ∧
      (x ≠ 15#4 ∨ s.cfg.vfWriteOrder = .resultLast →
        ((t.reg x).toNat : Int) = ((s.reg y).toNat - (s.reg x).toNat : Int) % 256) ∧
      (x ≠ 15#4 ∨ s.cfg.vfWriteOrder = .flagLast →
        (t.reg 15).toNat = if (s.reg x).toNat ≤ (s.reg y).toNat then 1 else 0))

/-- SHR and SHL shift V[y] by one bit into V[x], and VF is the bit shifted out; where V[x] is VF, the later write stays (R140, R142,
R133). -/
def Obligations.ShiftsMoveVyIntoVx : Prop :=
  ∀ (x y : Nibble) (s : State),
    decode (0x8#4 ++ x ++ y ++ 0x6#4) = .ok (.shrReg x y) ∧ decode (0x8#4 ++ x ++ y ++ 0xE#4) = .ok (.shlReg x y) ∧
    (∃ t, exec (.shrReg x y) s = .next t ∧ RegsKeptBut [x, 15] s t ∧ KeepsAllBut [.regs] s t ∧
      (x ≠ 15#4 ∨ s.cfg.vfWriteOrder = .resultLast → (t.reg x).toNat = (s.reg y).toNat / 2) ∧
      (x ≠ 15#4 ∨ s.cfg.vfWriteOrder = .flagLast → (t.reg 15).toNat = (s.reg y).toNat % 2)) ∧
    (∃ t, exec (.shlReg x y) s = .next t ∧ RegsKeptBut [x, 15] s t ∧ KeepsAllBut [.regs] s t ∧
      (x ≠ 15#4 ∨ s.cfg.vfWriteOrder = .resultLast → (t.reg x).toNat = (2 * (s.reg y).toNat) % 256) ∧
      (x ≠ 15#4 ∨ s.cfg.vfWriteOrder = .flagLast → (t.reg 15).toNat = (s.reg y).toNat / 128))

/-- RND: V[x] is the cycle's random byte masked by `kk`, whatever the byte is; bits outside `kk` are 0 (R143). -/
def Obligations.RandomByteIsMasked : Prop :=
  ∀ (x : Nibble) (kk : Byte) (s : State),
    decode (0xC#4 ++ x ++ kk) = .ok (.rnd x kk) ∧
    ∃ t, exec (.rnd x kk) s = .next t ∧ RegsKeptBut [x] s t ∧ KeepsAllBut [.regs] s t ∧
      ∀ k, k < 8 → (t.reg x).getLsbD k = if kk.getLsbD k then s.inputs.rnd.getLsbD k else false

/-- LD I, nnn: `I` is `nnn`. LD F, Vx: `I` is `V[x] * 5`, not reduced, for every value of V[x]. Nothing else changes (R144, R171). -/
def Obligations.IndexLoads : Prop :=
  ∀ (nnn : Imm12) (x : Nibble) (s : State),
    decode (0xA#4 ++ nnn) = .ok (.ldI nnn) ∧ decode (0xF#4 ++ x ++ 0x29#8) = .ok (.ldF x) ∧
    (∃ t, exec (.ldI nnn) s = .next t ∧ t.i.toNat = nnn.toNat ∧ KeepsAllBut [.i] s t) ∧
    (∃ t, exec (.ldF x) s = .next t ∧ t.i.toNat = 5 * (s.reg x).toNat ∧ KeepsAllBut [.i] s t)

/-- ADD I, Vx: `I` is the exact sum, unmasked, and no flag is written; a sum above 0xFFFF faults with the sum (R145, R227). -/
def Obligations.AddIndexOrOverflow : Prop :=
  ∀ (x : Nibble) (s : State),
    decode (0xF#4 ++ x ++ 0x1E#8) = .ok (.addI x) ∧
    (s.i.toNat + (s.reg x).toNat ≤ 0xFFFF →
      ∃ t, exec (.addI x) s = .next t ∧ t.i.toNat = s.i.toNat + (s.reg x).toNat ∧ KeepsAllBut [.i] s t) ∧
    (0xFFFF < s.i.toNat + (s.reg x).toNat →
      ∃ t, exec (.addI x) s = .next t ∧ HaltsWith (.indexOverflow (s.i.toNat + (s.reg x).toNat)) s t)

/- ## Memory, BCD, block transfer, timers, keys (42_memory_timers_keys.md) -/

/-- LD B, Vx: the three decimal digits of V[x], hundreds first, go to `I`, `I+1`, `I+2`, and nothing else changes; below 0x200 it
faults naming `I`, and past 0xFFF naming the first address above it (R172). -/
def Obligations.DecimalDigitsStored : Prop :=
  ∀ (x : Nibble) (s : State),
    decode (0xF#4 ++ x ++ 0x33#8) = .ok (.ldB x) ∧
    (0x200 ≤ s.i.toNat → s.i.toNat + 2 ≤ 0xFFF →
      ∃ t, exec (.ldB x) s = .next t ∧
        (t.readByte s.i.toNat).toNat = (s.reg x).toNat / 100 ∧
        (t.readByte (s.i.toNat + 1)).toNat = (s.reg x).toNat / 10 % 10 ∧
        (t.readByte (s.i.toNat + 2)).toNat = (s.reg x).toNat % 10 ∧
        BytesKeptOutside s.i.toNat 3 s t ∧ KeepsAllBut [.mem] s t) ∧
    (s.i.toNat < 0x200 → ∃ t, exec (.ldB x) s = .next t ∧ HaltsWith (.reservedWrite s.i.toNat) s t) ∧
    (0xFFF < s.i.toNat + 2 →
      ∃ t, exec (.ldB x) s = .next t ∧ HaltsWith (.addressOutOfRange (max s.i.toNat 0x1000)) s t)

/-- LD [I], Vx: V0..Vx go to `I .. I+x` and nothing else changes; below 0x200 it faults naming `I`, and past 0xFFF naming the first
address above it (R173). -/
def Obligations.RegisterBlockStored : Prop :=
  ∀ (x : Nibble) (s : State),
    decode (0xF#4 ++ x ++ 0x55#8) = .ok (.stRegs x) ∧
    (0x200 ≤ s.i.toNat → s.i.toNat + x.toNat ≤ 0xFFF →
      ∃ t, exec (.stRegs x) s = .next t ∧ (∀ r : Nibble, r ≤ x → t.readByte (s.i.toNat + r.toNat) = s.reg r) ∧
        BytesKeptOutside s.i.toNat (x.toNat + 1) s t ∧ KeepsAllBut [.mem] s t) ∧
    (s.i.toNat < 0x200 → ∃ t, exec (.stRegs x) s = .next t ∧ HaltsWith (.reservedWrite s.i.toNat) s t) ∧
    (0xFFF < s.i.toNat + x.toNat →
      ∃ t, exec (.stRegs x) s = .next t ∧ HaltsWith (.addressOutOfRange (max s.i.toNat 0x1000)) s t)

/-- LD Vx, [I]: V0..Vx come from `I .. I+x`, the reserved area included, and nothing else changes; past 0xFFF it faults naming the
first address above it (R174). -/
def Obligations.RegisterBlockLoaded : Prop :=
  ∀ (x : Nibble) (s : State),
    decode (0xF#4 ++ x ++ 0x65#8) = .ok (.ldRegs x) ∧
    (s.i.toNat + x.toNat ≤ 0xFFF →
      ∃ t, exec (.ldRegs x) s = .next t ∧
        (∀ r : Nibble, t.reg r = if r ≤ x then s.readByte (s.i.toNat + r.toNat) else s.reg r) ∧ KeepsAllBut [.regs] s t) ∧
    (0xFFF < s.i.toNat + x.toNat →
      ∃ t, exec (.ldRegs x) s = .next t ∧ HaltsWith (.addressOutOfRange (max s.i.toNat 0x1000)) s t)

/-- A block store, then a block load with the same `I` and `x` from any state with that memory, gives back the stored registers
(R174). -/
def Obligations.BlockStoreThenLoad : Prop :=
  ∀ (x : Nibble) (s t u : State), 0x200 ≤ s.i.toNat → s.i.toNat + x.toNat ≤ 0xFFF → exec (.stRegs x) s = .next t →
    u.i = s.i → (∀ a, u.readByte a = t.readByte a) →
    ∃ w, exec (.ldRegs x) u = .next w ∧ (∀ r : Nibble, r ≤ x → w.reg r = s.reg r) ∧ ∀ r : Nibble, x < r → w.reg r = u.reg r

/-- The timer transfers: V[x] gets DT, DT gets V[x], ST gets V[x], and nothing else changes (R175 to R177). -/
def Obligations.TimerTransfers : Prop :=
  ∀ (x : Nibble) (s : State),
    (∃ t, exec (.ldFromDT x) s = .next t ∧ t.reg x = s.dt ∧ RegsKeptBut [x] s t ∧ KeepsAllBut [.regs] s t) ∧
    (∃ t, exec (.ldDT x) s = .next t ∧ t.dt = s.reg x ∧ KeepsAllBut [.dt] s t) ∧
    (∃ t, exec (.ldST x) s = .next t ∧ t.st = s.reg x ∧ KeepsAllBut [.st] s t)

/-- The tick runs after the handler: at the end of its own cycle LD DT, Vx leaves DT one below V[x], LD Vx, DT has read DT before
the tick, and LD ST, Vx leaves `alert` on if V[x] was above 0, or above 1 under `ALERT_SAMPLE = after` (R93). -/
def Obligations.TickFollowsTimerTransfer : Prop :=
  ∀ (s : State) (inputs : CycleInputs) (op : Word) (x : Nibble), s.run = .running → s.fetch = .ok op →
    (decode op = .ok (.ldDT x) → ∃ t, s.cycle inputs = .next t ∧ t.dt.toNat = (s.reg x).toNat - 1) ∧
    (decode op = .ok (.ldST x) → ∃ t, s.cycle inputs = .next t ∧ t.st.toNat = (s.reg x).toNat - 1 ∧
      (s.cfg.alertSample = .before → (t.alert = true ↔ 0 < (s.reg x).toNat)) ∧
      (s.cfg.alertSample = .after → (t.alert = true ↔ 1 < (s.reg x).toNat))) ∧
    (decode op = .ok (.ldFromDT x) → ∃ t, s.cycle inputs = .next t ∧ t.reg x = s.dt ∧ t.dt.toNat = s.dt.toNat - 1)

/-- LD Vx, K: its cycle suspends the core with `pc = A + 2` and no tick, and a resumption with any key code completes it: V[x] gets
the code and the timers tick once (R178). -/
def Obligations.KeyWaitSuspendsThenCompletes : Prop :=
  ∀ (s : State) (inputs : CycleInputs) (op : Word) (x : Nibble),
    (∃ t, exec (.ldKey x) s = .next t ∧ t.run = .awaitingKey x ∧ KeepsAllBut [.run] s t) ∧
    (s.run = .running → s.fetch = .ok op → decode op = .ok (.ldKey x) →
      ∃ t, s.cycle inputs = .next t ∧ t.outcome = .needsInput x ∧ t.pc = s.pc + 2 ∧
        KeepsAllBut ([.run, .pc] ++ ownParts) s t ∧
        ∀ k, k ≤ 15 → ∃ u, t.resume k = .next u ∧ (u.reg x).toNat = k ∧ u.run = .running ∧ u.pc = s.pc + 2 ∧
          u.dt.toNat = s.dt.toNat - 1 ∧ u.st.toNat = s.st.toNat - 1)

/- ## Display (43_display.md) -/

/-- CLS: every cell is unset, one `DisplayChanged` is emitted, nothing else changes (R200). -/
def Obligations.ClearUnsetsEveryCell : Prop :=
  decode 0x00E0#16 = .ok .cls ∧
  ∀ s : State, ∃ t, exec .cls s = .next t ∧ (∀ x y, t.fb.cell x y = false) ∧
    t.events = s.events ++ [.displayChanged] ∧ KeepsAllBut [.fb, .events] s t

/-- DRW: where its rows can be read, every cell of the grid is XOR-ed with the sprite's pixel there, so pixels outside are dropped and
nothing wraps; one `DisplayChanged` is emitted; nothing but VF changes besides. A height of 0 always completes (R201, R202). -/
def Obligations.DrawXorsSpriteIntoGrid : Prop :=
  ∀ (x y n : Nibble) (s : State),
    decode (0xD#4 ++ x ++ y ++ n) = .ok (.drw x y n) ∧
    (n = 0#4 ∨ s.i.toNat + n.toNat ≤ 0x1000 →
      ∃ t, exec (.drw x y n) s = .next t ∧
        (∀ cx cy, cx ≤ 63 → cy ≤ 31 → t.fb.cell cx cy = (s.fb.cell cx cy ^^ s.spriteBit x y n cx cy)) ∧
        t.events = s.events ++ [.displayChanged] ∧ RegsKeptBut [15] s t ∧ KeepsAllBut [.fb, .regs, .events] s t) ∧
    (n ≠ 0#4 → 0x1000 < s.i.toNat + n.toNat →
      ∃ t, exec (.drw x y n) s = .next t ∧ HaltsWith (.addressOutOfRange (max s.i.toNat 0x1000)) s t)

/-- DRW and VF: a draw that turns a set cell off sets VF to 1; one that does not leaves VF as it was, or clears it where
`DRW_CLEARS_VF` is set (R203). A draw of height 0 leaves VF under either value (R201's corner case, against its pseudocode: log
entry 18). -/
def Obligations.DrawReportsCollision : Prop :=
  ∀ (x y n : Nibble) (s t : State), (n = 0#4 ∨ s.i.toNat + n.toNat ≤ 0x1000) → exec (.drw x y n) s = .next t →
    (s.collides x y n → t.reg 15 = 1#8) ∧
    (¬ s.collides x y n → n ≠ 0#4 → t.reg 15 = if s.cfg.drwClearsVf then 0#8 else s.reg 15) ∧
    (n = 0#4 → ¬ s.collides x y n ∧ t.reg 15 = s.reg 15)

/-- Drawing the same sprite twice restores the framebuffer. The second draw leaves VF = 1 if the sprite set any pixel in the grid
on a cell that was unset, and, where `DRW_CLEARS_VF` is false and VF still holds what the first draw left, if it set any pixel in the
grid at all. A sprite byte of 0 changes no cell of its row (R205). -/
def Obligations.DrawTwiceRestores : Prop :=
  ∀ (x y n : Nibble) (s t u w : State), (n = 0#4 ∨ s.i.toNat + n.toNat ≤ 0x1000) →
    exec (.drw x y n) s = .next t → u.fb = t.fb → u.i = s.i → u.reg x = s.reg x → u.reg y = s.reg y →
    (∀ a, u.readByte a = s.readByte a) → exec (.drw x y n) u = .next w →
    (∀ cx cy, w.fb.cell cx cy = s.fb.cell cx cy) ∧
    ((∃ cx cy, cx ≤ 63 ∧ cy ≤ 31 ∧ s.spriteBit x y n cx cy = true ∧ s.fb.cell cx cy = false) → w.reg 15 = 1#8) ∧
    (u.cfg.drwClearsVf = false → u.reg 15 = t.reg 15 →
      (∃ cx cy, cx ≤ 63 ∧ cy ≤ 31 ∧ s.spriteBit x y n cx cy = true) → w.reg 15 = 1#8) ∧
    (∀ j, j < n.toNat → s.readByte (s.i.toNat + j) = 0 →
      ∀ cx, t.fb.cell cx ((s.reg y).toNat + j) = s.fb.cell cx ((s.reg y).toNat + j))

/- ## Whole-machine rules -/

/-- Which instructions change which part: no other instruction does, whether it completes or faults (R23, R28 to R33, R51). -/
def Obligations.OnlyNamedInstructionsWrite : Prop :=
  ∀ (i : Instr) (s t : State), exec i s = .next t →
    (t.mem ≠ s.mem → (∃ x, i = .ldB x) ∨ ∃ x, i = .stRegs x) ∧
    (t.i ≠ s.i → (∃ nnn, i = .ldI nnn) ∨ (∃ x, i = .addI x) ∨ ∃ x, i = .ldF x) ∧
    (t.stack ≠ s.stack → i = .ret ∨ ∃ nnn, i = .call nnn) ∧
    (t.dt ≠ s.dt → ∃ x, i = .ldDT x) ∧ (t.st ≠ s.st → ∃ x, i = .ldST x) ∧ t.alert = s.alert ∧
    (t.fb ≠ s.fb → i = .cls ∨ ∃ x y n, i = .drw x y n) ∧
    (t.run ≠ s.run → (∃ x, i = .ldKey x ∧ t.run = .awaitingKey x) ∨ ∃ f, t.run = .halted f) ∧
    t.cfg = s.cfg ∧ t.inbox = s.inbox ∧ t.inputs = s.inputs ∧ t.cur = s.cur ∧ t.freeCycles = s.freeCycles

/-- Which instructions change a register `r`: those whose destination it is, the flag-setting ones for VF, DRW for VF, and a block
load that reaches it (R22, R23). -/
def Obligations.OnlyNamedInstructionsWriteRegisters : Prop :=
  ∀ (i : Instr) (s t : State) (r : Nibble), exec i s = .next t → t.reg r ≠ s.reg r →
    match i with
    | .ldImm x _ => r = x
    | .addImm x _ => r = x
    | .ldReg x _ => r = x
    | .orReg x _ => r = x
    | .andReg x _ => r = x
    | .xorReg x _ => r = x
    | .addReg x _ => r = x ∨ r = 15#4
    | .subReg x _ => r = x ∨ r = 15#4
    | .shrReg x _ => r = x ∨ r = 15#4
    | .subnReg x _ => r = x ∨ r = 15#4
    | .shlReg x _ => r = x ∨ r = 15#4
    | .rnd x _ => r = x
    | .drw _ _ _ => r = 15#4
    | .ldFromDT x => r = x
    | .ldRegs x => r ≤ x
    | _ => False

/-- The display notification: a running core's cycle emits one `DisplayChanged` if its instruction is CLS or a DRW that does not
fault, and no event otherwise, whether or not a cell changed (R204). -/
def Obligations.DisplayEventsOfCycle : Prop :=
  ∀ (s t : State) (inputs : CycleInputs) (op : Word) (i : Instr), s.run = .running → s.fetch = .ok op → decode op = .ok i →
    s.cycle inputs = .next t →
    t.events = if (i = .cls ∨ ∃ x y n, i = .drw x y n) ∧ t.run = .running then [.displayChanged] else []

/-- No instruction reads ST or `alert`: changing either before an instruction changes nothing but that part after it, and LD ST, Vx
overwrites ST whatever it was (R31, R32). -/
def Obligations.NoInstructionReadsSoundTimer : Prop :=
  ∀ (i : Instr) (s : State) (a : Byte) (b : Bool),
    exec i { s with alert := b } = mapNext (fun t => { t with alert := b }) (exec i s) ∧
    ((∀ x, i ≠ .ldST x) → exec i { s with st := a } = mapNext (fun t => { t with st := a }) (exec i s)) ∧
    (∀ x, i = .ldST x → exec i { s with st := a } = exec i s)

/-- Only RND reads the random byte, and only SKP and SKNP ask for keys: any other instruction does the same whatever the host's inputs
are (R14, R242). -/
def Obligations.OnlyNamedInstructionsReadInputs : Prop :=
  ∀ (i : Instr) (s : State) (inputs : CycleInputs),
    (∀ x kk, i = .rnd x kk → s.inputs.rnd = inputs.rnd) →
    (∀ x, i = .skp x ∨ i = .sknp x → s.inputs.pressed = inputs.pressed) →
    exec i { s with inputs := inputs } = mapNext (fun t => { t with inputs := inputs }) (exec i s)

/-- No cycle changes the reserved area: every byte below 0x200 reads as before, so the fontset is never mutated (R57, R36). -/
def Obligations.ReservedAreaNeverWritten : Prop :=
  ∀ (s t : State) (inputs : CycleInputs) (a : Nat), s.cycle inputs = .next t → a < 0x200 → t.readByte a = s.readByte a

/-- Every step keeps the invariant: memory canonical and within 0x000..0xFFF, the reserved area at its reset contents, `pc` at most
0x10FE, return addresses even and at most 0x1000, the stack within its limit, and `pc` the faulting address of a halted core (R27,
R29, R35, R57, R102, R230). -/
def Obligations.StepKeepsMachineInvariant : Prop := ∀ s t : State, s.Inv → step s = .next t → t.Inv

/-- The reset state meets the invariant, under every configuration (R260). -/
def Obligations.ResetMeetsMachineInvariant : Prop := ∀ cfg : Config, (State.resetWith cfg).Inv

/-- A cycle never has no next state, and a step is refused only for a host transaction the spec refuses: a resumption or a load (R88,
R245, R264). -/
def Obligations.OnlyHostTransactionsAreRefused : Prop :=
  ∀ s : State, (∀ inputs, ∃ t, s.cycle inputs = .next t) ∧
    ((∃ t, step s = .next t) ∨ ∃ rest, (∃ k, s.inbox = .resume k :: rest) ∨ ∃ image, s.inbox = .load image :: rest)
end

