-- ==== Sys2Proof/Laws/Decode.lean ====
section
/-! SUPPORT. The fields of a word and the words of the formats as numbers, and so the fields of the words the encoder builds. -/
namespace Sys2Proof

theorem toNat_append (v w : Nat) (a : BitVec v) (b : BitVec w) : (a ++ b).toNat = a.toNat * 2 ^ w + b.toNat := by
  rw [BitVec.toNat_append, ← Nat.shiftLeft_add_eq_or_of_lt b.isLt, Nat.shiftLeft_eq]

theorem toNat_fieldF (op : Word) : (fieldF op).toNat = op.toNat / 4096 := by
  have := op.isLt
  simp only [fieldF, BitVec.extractLsb'_toNat, Nat.shiftRight_eq_div_pow]; omega
theorem toNat_fieldX (op : Word) : (fieldX op).toNat = op.toNat / 256 % 16 := by
  simp only [fieldX, BitVec.extractLsb'_toNat, Nat.shiftRight_eq_div_pow]
theorem toNat_fieldY (op : Word) : (fieldY op).toNat = op.toNat / 16 % 16 := by
  simp only [fieldY, BitVec.extractLsb'_toNat, Nat.shiftRight_eq_div_pow]
theorem toNat_fieldN (op : Word) : (fieldN op).toNat = op.toNat % 16 := by
  simp only [fieldN, BitVec.extractLsb'_toNat, Nat.shiftRight_eq_div_pow, Nat.pow_zero, Nat.div_one]
theorem toNat_fieldKK (op : Word) : (fieldKK op).toNat = op.toNat % 256 := by
  simp only [fieldKK, BitVec.extractLsb'_toNat, Nat.shiftRight_eq_div_pow, Nat.pow_zero, Nat.div_one]
theorem toNat_fieldNNN (op : Word) : (fieldNNN op).toNat = op.toNat % 4096 := by
  simp only [fieldNNN, BitVec.extractLsb'_toNat, Nat.shiftRight_eq_div_pow]; omega

theorem toNat_wordNNN (f : Nibble) (nnn : Imm12) : (wordNNN f nnn).toNat = f.toNat * 4096 + nnn.toNat :=
  toNat_append _ _ f nnn
theorem toNat_wordXKK (f x : Nibble) (kk : Byte) :
    (wordXKK f x kk).toNat = f.toNat * 4096 + x.toNat * 256 + kk.toNat := by
  refine (toNat_append 8 8 (f ++ x) kk).trans ?_
  rw [toNat_append 4 4 f x]; omega
theorem toNat_wordXYN (f x y n : Nibble) :
    (wordXYN f x y n).toNat = f.toNat * 4096 + x.toNat * 256 + y.toNat * 16 + n.toNat := by
  refine (toNat_append 12 4 (f ++ x ++ y) n).trans ?_
  rw [toNat_append 8 4 (f ++ x) y, toNat_append 4 4 f x]; omega

/-- The bytes of a big-endian word (20_memory.md R52). -/
theorem toNat_wordOfBytes (b1 b2 : Byte) : (wordOfBytes b1 b2).toNat = 256 * b1.toNat + b2.toNat := by
  have := toNat_append _ _ b1 b2
  rw [wordOfBytes, this]; omega

/-- A word laid out as memory holds it reads back as itself (20_memory.md R52). -/
theorem wordOfBytes_highByte_lowByte (w : Word) : wordOfBytes (highByte w) (lowByte w) = w := by
  apply BitVec.eq_of_toNat_eq
  have := w.isLt
  rw [toNat_wordOfBytes]
  simp only [highByte, lowByte, BitVec.extractLsb'_toNat, Nat.shiftRight_eq_div_pow]; omega

@[simp] theorem fieldF_wordNNN (f : Nibble) (nnn : Imm12) : fieldF (wordNNN f nnn) = f := by
  apply BitVec.eq_of_toNat_eq; rw [toNat_fieldF, toNat_wordNNN]; omega
@[simp] theorem fieldNNN_wordNNN (f : Nibble) (nnn : Imm12) : fieldNNN (wordNNN f nnn) = nnn := by
  apply BitVec.eq_of_toNat_eq; rw [toNat_fieldNNN, toNat_wordNNN]; omega
@[simp] theorem fieldF_wordXKK (f x : Nibble) (kk : Byte) : fieldF (wordXKK f x kk) = f := by
  apply BitVec.eq_of_toNat_eq; rw [toNat_fieldF, toNat_wordXKK]; omega
@[simp] theorem fieldX_wordXKK (f x : Nibble) (kk : Byte) : fieldX (wordXKK f x kk) = x := by
  apply BitVec.eq_of_toNat_eq; rw [toNat_fieldX, toNat_wordXKK]; omega
@[simp] theorem fieldKK_wordXKK (f x : Nibble) (kk : Byte) : fieldKK (wordXKK f x kk) = kk := by
  apply BitVec.eq_of_toNat_eq; rw [toNat_fieldKK, toNat_wordXKK]; omega
@[simp] theorem fieldF_wordXYN (f x y n : Nibble) : fieldF (wordXYN f x y n) = f := by
  apply BitVec.eq_of_toNat_eq; rw [toNat_fieldF, toNat_wordXYN]; omega
@[simp] theorem fieldX_wordXYN (f x y n : Nibble) : fieldX (wordXYN f x y n) = x := by
  apply BitVec.eq_of_toNat_eq; rw [toNat_fieldX, toNat_wordXYN]; omega
@[simp] theorem fieldY_wordXYN (f x y n : Nibble) : fieldY (wordXYN f x y n) = y := by
  apply BitVec.eq_of_toNat_eq; rw [toNat_fieldY, toNat_wordXYN]; omega
@[simp] theorem fieldN_wordXYN (f x y n : Nibble) : fieldN (wordXYN f x y n) = n := by
  apply BitVec.eq_of_toNat_eq; rw [toNat_fieldN, toNat_wordXYN]; omega

/-- A word masked by a family's bits, alone or with its low bits, as a number (30_encoding.md R80). -/
theorem mask_family (w : Word) : (w &&& 0xF000#16).toNat = w.toNat / 4096 * 4096 := by
  have h : w &&& 0xF000#16 = (w >>> 12) <<< 12 := by
    apply BitVec.eq_of_getLsbD_eq; intro k hk; interval_cases k <;> simp
  have := w.isLt
  rw [h, BitVec.toNat_shiftLeft, BitVec.toNat_ushiftRight, Nat.shiftLeft_eq, Nat.shiftRight_eq_div_pow]; omega

theorem mask_split (w : Word) (m : Nat) :
    w &&& (0xF000#16 ||| BitVec.ofNat 16 (2 ^ m - 1)) = (w &&& 0xF000#16) ||| (w &&& BitVec.ofNat 16 (2 ^ m - 1)) := by
  apply BitVec.eq_of_getLsbD_eq; intro k hk; simp [Bool.and_or_distrib_left]

theorem mask_family_n (w : Word) : (w &&& 0xF00F#16).toNat = w.toNat / 4096 * 4096 + w.toNat % 16 := by
  have h : w &&& 0xF00F#16 = (w &&& 0xF000#16) ||| (w &&& 15#16) := mask_split w 4
  have e : (w &&& 15#16).toNat = w.toNat % 16 := Nat.and_two_pow_sub_one_eq_mod w.toNat 4
  rw [h, BitVec.toNat_or, mask_family, e, show 4096 = 2 ^ 12 from rfl, ← Nat.shiftLeft_eq,
    ← Nat.shiftLeft_add_eq_or_of_lt (by omega), Nat.shiftLeft_eq]

theorem mask_family_kk (w : Word) : (w &&& 0xF0FF#16).toNat = w.toNat / 4096 * 4096 + w.toNat % 256 := by
  have h : w &&& 0xF0FF#16 = (w &&& 0xF000#16) ||| (w &&& 255#16) := mask_split w 8
  have e : (w &&& 255#16).toNat = w.toNat % 256 := Nat.and_two_pow_sub_one_eq_mod w.toNat 8
  rw [h, BitVec.toNat_or, mask_family, e, show 4096 = 2 ^ 12 from rfl, ← Nat.shiftLeft_eq,
    ← Nat.shiftLeft_add_eq_or_of_lt (by omega), Nat.shiftLeft_eq]

/-- A row matches a word when the masked word is the row's value, as numbers (30_encoding.md R80). -/
theorem matchesWord_iff (r : OpcodeRow) (w : Word) : r.matchesWord w = true ↔ (w &&& r.mask).toNat = r.value.toNat := by
  rw [OpcodeRow.matchesWord, beq_iff_eq, BitVec.toNat_inj]

end Sys2Proof
end

