-- ==== Sys2Proof/Laws/State.lean ====
section
/-! SUPPORT. One lemma per field and update of the state, and what the register and byte reads give after an update, each true by
definition: no later proof unfolds a record update. -/
namespace Sys2Proof.Machine

/- ## setReg -/

@[simp] theorem State.setReg_mem (s : State) (x : Nibble) (b : Byte) : (s.setReg x b).mem = s.mem := rfl
@[simp] theorem State.setReg_v (s : State) (x : Nibble) (b : Byte) : (s.setReg x b).v = s.v.set x.toNat b x.isLt := rfl
@[simp] theorem State.setReg_i (s : State) (x : Nibble) (b : Byte) : (s.setReg x b).i = s.i := rfl
@[simp] theorem State.setReg_pc (s : State) (x : Nibble) (b : Byte) : (s.setReg x b).pc = s.pc := rfl
@[simp] theorem State.setReg_stack (s : State) (x : Nibble) (b : Byte) : (s.setReg x b).stack = s.stack := rfl
@[simp] theorem State.setReg_dt (s : State) (x : Nibble) (b : Byte) : (s.setReg x b).dt = s.dt := rfl
@[simp] theorem State.setReg_st (s : State) (x : Nibble) (b : Byte) : (s.setReg x b).st = s.st := rfl
@[simp] theorem State.setReg_fb (s : State) (x : Nibble) (b : Byte) : (s.setReg x b).fb = s.fb := rfl
@[simp] theorem State.setReg_alert (s : State) (x : Nibble) (b : Byte) : (s.setReg x b).alert = s.alert := rfl
@[simp] theorem State.setReg_run (s : State) (x : Nibble) (b : Byte) : (s.setReg x b).run = s.run := rfl
@[simp] theorem State.setReg_cfg (s : State) (x : Nibble) (b : Byte) : (s.setReg x b).cfg = s.cfg := rfl
@[simp] theorem State.setReg_inbox (s : State) (x : Nibble) (b : Byte) : (s.setReg x b).inbox = s.inbox := rfl
@[simp] theorem State.setReg_freeCycles (s : State) (x : Nibble) (b : Byte) : (s.setReg x b).freeCycles = s.freeCycles := rfl
@[simp] theorem State.setReg_inputs (s : State) (x : Nibble) (b : Byte) : (s.setReg x b).inputs = s.inputs := rfl
@[simp] theorem State.setReg_cur (s : State) (x : Nibble) (b : Byte) : (s.setReg x b).cur = s.cur := rfl
@[simp] theorem State.setReg_events (s : State) (x : Nibble) (b : Byte) : (s.setReg x b).events = s.events := rfl
@[simp] theorem State.setReg_readByte (s : State) (x : Nibble) (b : Byte) (c : Nat) : (s.setReg x b).readByte c = s.readByte c := rfl

/- ## writeByte -/

@[simp] theorem State.writeByte_mem (s : State) (a : Nat) (b : Byte) : (s.writeByte a b).mem = s.mem.write (resetByte s.cfg) a b := rfl
@[simp] theorem State.writeByte_v (s : State) (a : Nat) (b : Byte) : (s.writeByte a b).v = s.v := rfl
@[simp] theorem State.writeByte_i (s : State) (a : Nat) (b : Byte) : (s.writeByte a b).i = s.i := rfl
@[simp] theorem State.writeByte_pc (s : State) (a : Nat) (b : Byte) : (s.writeByte a b).pc = s.pc := rfl
@[simp] theorem State.writeByte_stack (s : State) (a : Nat) (b : Byte) : (s.writeByte a b).stack = s.stack := rfl
@[simp] theorem State.writeByte_dt (s : State) (a : Nat) (b : Byte) : (s.writeByte a b).dt = s.dt := rfl
@[simp] theorem State.writeByte_st (s : State) (a : Nat) (b : Byte) : (s.writeByte a b).st = s.st := rfl
@[simp] theorem State.writeByte_fb (s : State) (a : Nat) (b : Byte) : (s.writeByte a b).fb = s.fb := rfl
@[simp] theorem State.writeByte_alert (s : State) (a : Nat) (b : Byte) : (s.writeByte a b).alert = s.alert := rfl
@[simp] theorem State.writeByte_run (s : State) (a : Nat) (b : Byte) : (s.writeByte a b).run = s.run := rfl
@[simp] theorem State.writeByte_cfg (s : State) (a : Nat) (b : Byte) : (s.writeByte a b).cfg = s.cfg := rfl
@[simp] theorem State.writeByte_inbox (s : State) (a : Nat) (b : Byte) : (s.writeByte a b).inbox = s.inbox := rfl
@[simp] theorem State.writeByte_freeCycles (s : State) (a : Nat) (b : Byte) : (s.writeByte a b).freeCycles = s.freeCycles := rfl
@[simp] theorem State.writeByte_inputs (s : State) (a : Nat) (b : Byte) : (s.writeByte a b).inputs = s.inputs := rfl
@[simp] theorem State.writeByte_cur (s : State) (a : Nat) (b : Byte) : (s.writeByte a b).cur = s.cur := rfl
@[simp] theorem State.writeByte_events (s : State) (a : Nat) (b : Byte) : (s.writeByte a b).events = s.events := rfl
@[simp] theorem State.writeByte_reg (s : State) (a : Nat) (b : Byte) (r : Nibble) : (s.writeByte a b).reg r = s.reg r := rfl

/- ## takeFault -/

@[simp] theorem State.takeFault_mem (s : State) (k : FaultKind) : (s.takeFault k).mem = s.mem := rfl
@[simp] theorem State.takeFault_v (s : State) (k : FaultKind) : (s.takeFault k).v = s.v := rfl
@[simp] theorem State.takeFault_i (s : State) (k : FaultKind) : (s.takeFault k).i = s.i := rfl
@[simp] theorem State.takeFault_pc (s : State) (k : FaultKind) : (s.takeFault k).pc = s.cur.addr := rfl
@[simp] theorem State.takeFault_stack (s : State) (k : FaultKind) : (s.takeFault k).stack = s.stack := rfl
@[simp] theorem State.takeFault_dt (s : State) (k : FaultKind) : (s.takeFault k).dt = s.dt := rfl
@[simp] theorem State.takeFault_st (s : State) (k : FaultKind) : (s.takeFault k).st = s.st := rfl
@[simp] theorem State.takeFault_fb (s : State) (k : FaultKind) : (s.takeFault k).fb = s.fb := rfl
@[simp] theorem State.takeFault_alert (s : State) (k : FaultKind) : (s.takeFault k).alert = s.alert := rfl
@[simp] theorem State.takeFault_run (s : State) (k : FaultKind) : (s.takeFault k).run = .halted { kind := k, pc := s.cur.addr, op := s.cur.op } := rfl
@[simp] theorem State.takeFault_cfg (s : State) (k : FaultKind) : (s.takeFault k).cfg = s.cfg := rfl
@[simp] theorem State.takeFault_inbox (s : State) (k : FaultKind) : (s.takeFault k).inbox = s.inbox := rfl
@[simp] theorem State.takeFault_freeCycles (s : State) (k : FaultKind) : (s.takeFault k).freeCycles = s.freeCycles := rfl
@[simp] theorem State.takeFault_inputs (s : State) (k : FaultKind) : (s.takeFault k).inputs = s.inputs := rfl
@[simp] theorem State.takeFault_cur (s : State) (k : FaultKind) : (s.takeFault k).cur = s.cur := rfl
@[simp] theorem State.takeFault_events (s : State) (k : FaultKind) : (s.takeFault k).events = [] := rfl
@[simp] theorem State.takeFault_reg (s : State) (k : FaultKind) (r : Nibble) : (s.takeFault k).reg r = s.reg r := rfl
@[simp] theorem State.takeFault_readByte (s : State) (k : FaultKind) (c : Nat) : (s.takeFault k).readByte c = s.readByte c := rfl

/- ## skipIf -/

@[simp] theorem State.skipIf_mem (s : State) (c : Bool) : (s.skipIf c).mem = s.mem := rfl
@[simp] theorem State.skipIf_v (s : State) (c : Bool) : (s.skipIf c).v = s.v := rfl
@[simp] theorem State.skipIf_i (s : State) (c : Bool) : (s.skipIf c).i = s.i := rfl
@[simp] theorem State.skipIf_pc (s : State) (c : Bool) : (s.skipIf c).pc = if c then s.pc + 2 else s.pc := rfl
@[simp] theorem State.skipIf_stack (s : State) (c : Bool) : (s.skipIf c).stack = s.stack := rfl
@[simp] theorem State.skipIf_dt (s : State) (c : Bool) : (s.skipIf c).dt = s.dt := rfl
@[simp] theorem State.skipIf_st (s : State) (c : Bool) : (s.skipIf c).st = s.st := rfl
@[simp] theorem State.skipIf_fb (s : State) (c : Bool) : (s.skipIf c).fb = s.fb := rfl
@[simp] theorem State.skipIf_alert (s : State) (c : Bool) : (s.skipIf c).alert = s.alert := rfl
@[simp] theorem State.skipIf_run (s : State) (c : Bool) : (s.skipIf c).run = s.run := rfl
@[simp] theorem State.skipIf_cfg (s : State) (c : Bool) : (s.skipIf c).cfg = s.cfg := rfl
@[simp] theorem State.skipIf_inbox (s : State) (c : Bool) : (s.skipIf c).inbox = s.inbox := rfl
@[simp] theorem State.skipIf_freeCycles (s : State) (c : Bool) : (s.skipIf c).freeCycles = s.freeCycles := rfl
@[simp] theorem State.skipIf_inputs (s : State) (c : Bool) : (s.skipIf c).inputs = s.inputs := rfl
@[simp] theorem State.skipIf_cur (s : State) (c : Bool) : (s.skipIf c).cur = s.cur := rfl
@[simp] theorem State.skipIf_events (s : State) (c : Bool) : (s.skipIf c).events = s.events := rfl
@[simp] theorem State.skipIf_reg (s : State) (c : Bool) (r : Nibble) : (s.skipIf c).reg r = s.reg r := rfl
@[simp] theorem State.skipIf_readByte (s : State) (c : Bool) (a : Nat) : (s.skipIf c).readByte a = s.readByte a := rfl

/- ## notifyDisplay -/

@[simp] theorem State.notifyDisplay_mem (s : State) : s.notifyDisplay.mem = s.mem := rfl
@[simp] theorem State.notifyDisplay_v (s : State) : s.notifyDisplay.v = s.v := rfl
@[simp] theorem State.notifyDisplay_i (s : State) : s.notifyDisplay.i = s.i := rfl
@[simp] theorem State.notifyDisplay_pc (s : State) : s.notifyDisplay.pc = s.pc := rfl
@[simp] theorem State.notifyDisplay_stack (s : State) : s.notifyDisplay.stack = s.stack := rfl
@[simp] theorem State.notifyDisplay_dt (s : State) : s.notifyDisplay.dt = s.dt := rfl
@[simp] theorem State.notifyDisplay_st (s : State) : s.notifyDisplay.st = s.st := rfl
@[simp] theorem State.notifyDisplay_fb (s : State) : s.notifyDisplay.fb = s.fb := rfl
@[simp] theorem State.notifyDisplay_alert (s : State) : s.notifyDisplay.alert = s.alert := rfl
@[simp] theorem State.notifyDisplay_run (s : State) : s.notifyDisplay.run = s.run := rfl
@[simp] theorem State.notifyDisplay_cfg (s : State) : s.notifyDisplay.cfg = s.cfg := rfl
@[simp] theorem State.notifyDisplay_inbox (s : State) : s.notifyDisplay.inbox = s.inbox := rfl
@[simp] theorem State.notifyDisplay_freeCycles (s : State) : s.notifyDisplay.freeCycles = s.freeCycles := rfl
@[simp] theorem State.notifyDisplay_inputs (s : State) : s.notifyDisplay.inputs = s.inputs := rfl
@[simp] theorem State.notifyDisplay_cur (s : State) : s.notifyDisplay.cur = s.cur := rfl
@[simp] theorem State.notifyDisplay_events (s : State) : s.notifyDisplay.events = s.events ++ [.displayChanged] := rfl
@[simp] theorem State.notifyDisplay_reg (s : State) (r : Nibble) : (s.notifyDisplay).reg r = s.reg r := rfl
@[simp] theorem State.notifyDisplay_readByte (s : State) (c : Nat) : (s.notifyDisplay).readByte c = s.readByte c := rfl

/- ## tick -/

@[simp] theorem State.tick_mem (s : State) : s.tick.mem = s.mem := rfl
@[simp] theorem State.tick_v (s : State) : s.tick.v = s.v := rfl
@[simp] theorem State.tick_i (s : State) : s.tick.i = s.i := rfl
@[simp] theorem State.tick_pc (s : State) : s.tick.pc = s.pc := rfl
@[simp] theorem State.tick_stack (s : State) : s.tick.stack = s.stack := rfl
@[simp] theorem State.tick_dt (s : State) : s.tick.dt = countDown s.dt := rfl
@[simp] theorem State.tick_st (s : State) : s.tick.st = countDown s.st := rfl
@[simp] theorem State.tick_fb (s : State) : s.tick.fb = s.fb := rfl
@[simp] theorem State.tick_alert (s : State) : s.tick.alert = match s.cfg.alertSample with | .before => s.st != 0 | .after => countDown s.st != 0 := rfl
@[simp] theorem State.tick_run (s : State) : s.tick.run = s.run := rfl
@[simp] theorem State.tick_cfg (s : State) : s.tick.cfg = s.cfg := rfl
@[simp] theorem State.tick_inbox (s : State) : s.tick.inbox = s.inbox := rfl
@[simp] theorem State.tick_freeCycles (s : State) : s.tick.freeCycles = s.freeCycles := rfl
@[simp] theorem State.tick_inputs (s : State) : s.tick.inputs = s.inputs := rfl
@[simp] theorem State.tick_cur (s : State) : s.tick.cur = s.cur := rfl
@[simp] theorem State.tick_events (s : State) : s.tick.events = s.events := rfl
@[simp] theorem State.tick_reg (s : State) (r : Nibble) : (s.tick).reg r = s.reg r := rfl
@[simp] theorem State.tick_readByte (s : State) (c : Nat) : (s.tick).readByte c = s.readByte c := rfl

/- ## fetched -/

@[simp] theorem State.fetched_mem (s : State) (op : Word) : (s.fetched op).mem = s.mem := rfl
@[simp] theorem State.fetched_v (s : State) (op : Word) : (s.fetched op).v = s.v := rfl
@[simp] theorem State.fetched_i (s : State) (op : Word) : (s.fetched op).i = s.i := rfl
@[simp] theorem State.fetched_pc (s : State) (op : Word) : (s.fetched op).pc = s.pc + 2 := rfl
@[simp] theorem State.fetched_stack (s : State) (op : Word) : (s.fetched op).stack = s.stack := rfl
@[simp] theorem State.fetched_dt (s : State) (op : Word) : (s.fetched op).dt = s.dt := rfl
@[simp] theorem State.fetched_st (s : State) (op : Word) : (s.fetched op).st = s.st := rfl
@[simp] theorem State.fetched_fb (s : State) (op : Word) : (s.fetched op).fb = s.fb := rfl
@[simp] theorem State.fetched_alert (s : State) (op : Word) : (s.fetched op).alert = s.alert := rfl
@[simp] theorem State.fetched_run (s : State) (op : Word) : (s.fetched op).run = s.run := rfl
@[simp] theorem State.fetched_cfg (s : State) (op : Word) : (s.fetched op).cfg = s.cfg := rfl
@[simp] theorem State.fetched_inbox (s : State) (op : Word) : (s.fetched op).inbox = s.inbox := rfl
@[simp] theorem State.fetched_freeCycles (s : State) (op : Word) : (s.fetched op).freeCycles = s.freeCycles := rfl
@[simp] theorem State.fetched_inputs (s : State) (op : Word) : (s.fetched op).inputs = s.inputs := rfl
@[simp] theorem State.fetched_cur (s : State) (op : Word) : (s.fetched op).cur = { addr := s.pc, op := some op } := rfl
@[simp] theorem State.fetched_events (s : State) (op : Word) : (s.fetched op).events = s.events := rfl
@[simp] theorem State.fetched_reg (s : State) (op : Word) (r : Nibble) : (s.fetched op).reg r = s.reg r := rfl
@[simp] theorem State.fetched_readByte (s : State) (op : Word) (c : Nat) : (s.fetched op).readByte c = s.readByte c := rfl

end Sys2Proof.Machine
end

