-- ==== Sys2Proof/Laws/Memory.lean ====
section
/-! SUPPORT. Memory: a read after a write, the canonical form kept by every operation, block loads and stores, the access check. -/
namespace Sys2Proof.Machine

theorem Memory.read_insert (base : Nat → Byte) (m : Memory) (a b : Nat) (w : Byte) :
    Memory.read base (Memory.insert a w m) b = if b = a then w else Memory.read base m b := by
  induction m with
  | nil => simp [Memory.insert, Memory.read]
  | cons c m ih =>
    obtain ⟨k, u⟩ := c
    unfold Memory.insert
    split
    · simp [Memory.read]
    · split
      · rename_i h; subst h
        by_cases hb : b = a <;> simp [Memory.read, hb]
      · rename_i h1 h2
        simp only [Memory.read, ih]
        by_cases hb : b = k
        · have : k ≠ a := fun e => h2 e.symm
          simp [hb, this]
        · simp [hb]

theorem Memory.read_erase (base : Nat → Byte) (m : Memory) (a b : Nat) :
    Memory.read base (Memory.erase a m) b = if b = a then base a else Memory.read base m b := by
  induction m with
  | nil => by_cases h : b = a <;> simp [Memory.erase, Memory.read, h]
  | cons c m ih =>
    obtain ⟨k, u⟩ := c
    unfold Memory.erase at ih ⊢
    by_cases hk : k = a
    · subst hk
      simp only [List.filter_cons, bne_self_eq_false, Bool.false_eq_true, if_false, ih, Memory.read]
      by_cases hb : b = k <;> simp [hb]
    · have : (k != a) = true := by simpa using hk
      simp only [List.filter_cons, this, if_true, Memory.read, ih]
      by_cases hb : b = k
      · simp [hb, hk]
      · simp [hb]

/-- A read after a write: the value written at the same address, the value before at every other. -/
theorem Memory.read_write (base : Nat → Byte) (m : Memory) (a b : Nat) (w : Byte) :
    Memory.read base (Memory.write base m a w) b = if b = a then w else Memory.read base m b := by
  unfold Memory.write
  split
  · rename_i h; rw [Memory.read_erase, h]
  · exact Memory.read_insert base m a b w

theorem Memory.wf_iff (base : Nat → Byte) (m : Memory) :
    Memory.wf base m = true ↔
      m.Pairwise (fun c d => c.1 < d.1) ∧ ∀ c ∈ m, c.1 ≤ 0xFFF ∧ c.2 ≠ base c.1 := by
  simp [Memory.wf]

theorem Memory.mem_insert {a : Nat} {w : Byte} {m : Memory} {c : Host.Cell} (h : c ∈ Memory.insert a w m) :
    c = (a, w) ∨ c ∈ m := by
  induction m with
  | nil => simpa [Memory.insert] using h
  | cons d m ih =>
    obtain ⟨k, u⟩ := d
    unfold Memory.insert at h
    split at h
    · simpa using h
    · split at h
      · rcases List.mem_cons.1 h with h | h
        · exact .inl h
        · exact .inr (List.mem_cons_of_mem _ h)
      · rcases List.mem_cons.1 h with h | h
        · exact .inr (h ▸ List.mem_cons_self)
        · exact (ih h).imp_right (List.mem_cons_of_mem _)

theorem Memory.insert_rising {a : Nat} {w : Byte} {m : Memory} (h : m.Pairwise (fun c d => c.1 < d.1)) :
    (Memory.insert a w m).Pairwise (fun c d => c.1 < d.1) := by
  induction m with
  | nil => simp [Memory.insert]
  | cons d m ih =>
    obtain ⟨k, u⟩ := d
    obtain ⟨h1, h2⟩ := List.pairwise_cons.1 h
    unfold Memory.insert
    split
    · rename_i hak
      refine List.pairwise_cons.2 ⟨fun c hc => ?_, h⟩
      rcases List.mem_cons.1 hc with rfl | hc
      · exact hak
      · exact Nat.lt_trans hak (h1 c hc)
    · split
      · rename_i e; subst e
        exact List.pairwise_cons.2 ⟨fun c hc => h1 c hc, h2⟩
      · refine List.pairwise_cons.2 ⟨fun c hc => ?_, ih h2⟩
        rcases Memory.mem_insert hc with rfl | hc
        · exact (by omega : k < a)
        · exact h1 c hc

/-- Writing a byte inside 0x000..0xFFF keeps the canonical form. -/
theorem Memory.write_wf {base : Nat → Byte} {m : Memory} {a : Nat} {w : Byte} (h : Memory.wf base m = true)
    (ha : a ≤ 0xFFF) : Memory.wf base (Memory.write base m a w) = true := by
  rw [Memory.wf_iff] at h ⊢
  unfold Memory.write
  split
  · exact ⟨h.1.filter _, fun c hc => h.2 c (List.mem_of_mem_filter hc)⟩
  · rename_i hw
    refine ⟨Memory.insert_rising h.1, fun c hc => ?_⟩
    rcases Memory.mem_insert hc with rfl | hc
    · exact ⟨ha, hw⟩
    · exact h.2 c hc

/-- Reset's memory is in canonical form. -/
theorem Memory.wf_nil (base : Nat → Byte) : Memory.wf base [] = true := rfl

theorem State.readByte_writeByte (s : State) (a c : Nat) (b : Byte) :
    (s.writeByte a b).readByte c = if c = a then b else s.readByte c := Memory.read_write _ _ _ _ _

/-- A block store changes memory alone. -/
theorem State.storeBytes_eq (bs : List Byte) (s : State) (a : Nat) : ∃ m, s.storeBytes a bs = { s with mem := m } := by
  induction bs generalizing s a with
  | nil => exact ⟨s.mem, rfl⟩
  | cons b bs ih =>
    obtain ⟨m, h⟩ := ih (s.writeByte a b) (a + 1)
    exact ⟨m, h⟩

/-- What a byte reads as after a block store: the stored byte inside the block, the byte before outside. -/
theorem State.readByte_storeBytes (bs : List Byte) (s : State) (a c : Nat) :
    (s.storeBytes a bs).readByte c = if h : a ≤ c ∧ c - a < bs.length then bs[c - a]'h.2 else s.readByte c := by
  induction bs generalizing s a with
  | nil => simp [State.storeBytes]
  | cons b bs ih =>
    rw [State.storeBytes, ih, State.readByte_writeByte]
    by_cases h1 : a + 1 ≤ c
    · have e : c - a = (c - (a + 1)) + 1 := by omega
      by_cases h2 : c - (a + 1) < bs.length
      · have h3 : a ≤ c ∧ c - a < (b :: bs).length := ⟨by omega, by simp; omega⟩
        rw [dif_pos ⟨h1, h2⟩, dif_pos h3]
        simp [e]
      · have h3 : ¬(a ≤ c ∧ c - a < (b :: bs).length) := by simp; omega
        rw [dif_neg (by omega), dif_neg h3, if_neg (by omega)]
    · rw [dif_neg (by omega)]
      by_cases h2 : c = a
      · subst h2; simp
      · have : ¬ (a ≤ c ∧ c - a < (b :: bs).length) := by omega
        rw [dif_neg this, if_neg h2]

/-- A block store inside 0x000..0xFFF keeps the canonical form. -/
theorem State.storeBytes_wf (bs : List Byte) (s : State) (a : Nat) (h : s.mem.wf (resetByte s.cfg) = true)
    (ha : a + bs.length ≤ 0x1000) : (s.storeBytes a bs).mem.wf (resetByte s.cfg) = true := by
  induction bs generalizing s a with
  | nil => exact h
  | cons b bs ih =>
    simp only [List.length_cons] at ha
    exact ih (s.writeByte a b) (a + 1) (Memory.write_wf h (by omega)) (by omega)

@[simp] theorem State.length_loadBytes (s : State) (a k : Nat) : (s.loadBytes a k).length = k := by
  simp [State.loadBytes]

theorem State.getElem_loadBytes (s : State) (a k j : Nat) (h : j < (s.loadBytes a k).length) :
    (s.loadBytes a k)[j] = s.readByte (a + j) := by simp [State.loadBytes]

/-- The access check passes exactly when every address is in range and, for a write, outside the reserved area. -/
theorem checkAccess_eq_none {kind : AccessKind} {a k : Nat} :
    checkAccess kind a k = none ↔ ∀ b, a ≤ b → b < a + k → b ≤ 0xFFF ∧ (kind = .write → 0x200 ≤ b) := by
  induction k generalizing a with
  | zero => simp [checkAccess]; omega
  | succ k ih =>
    unfold checkAccess
    split
    · simp only [reduceCtorEq, false_iff, not_forall]
      exact ⟨a, Nat.le_refl a, by omega, by omega⟩
    · split
      · rename_i h1 h2
        simp only [reduceCtorEq, false_iff, not_forall]
        exact ⟨a, Nat.le_refl a, by omega, fun h => absurd (h.2 h2.1) (by omega)⟩
      · rename_i h1 h2
        rw [ih]
        constructor
        · intro h b hb1 hb2
          by_cases e : b = a
          · subst e; exact ⟨by omega, fun hk => Nat.le_of_not_lt fun hlt => h2 ⟨hk, hlt⟩⟩
          · exact h b (by omega) (by omega)
        · intro h b hb1 hb2
          exact h b (by omega) (by omega)

/-- A failed check names the first address of the access that fails: one above 0xFFF, or, of a write, one below 0x200, which is then
the access's first address. -/
theorem checkAccess_eq_some {kind : AccessKind} {a k : Nat} {f : FaultKind} (h : checkAccess kind a k = some f) :
    ∃ b, a ≤ b ∧ b < a + k ∧ (∀ c, a ≤ c → c < b → c ≤ 0xFFF ∧ (kind = .write → 0x200 ≤ c)) ∧
      (f = .addressOutOfRange b ∧ 0xFFF < b ∨ f = .reservedWrite b ∧ b < 0x200 ∧ b = a ∧ kind = .write) := by
  induction k generalizing a with
  | zero => simp [checkAccess] at h
  | succ k ih =>
    unfold checkAccess at h
    split at h
    · exact ⟨a, Nat.le_refl a, by omega, by omega, .inl ⟨by simpa using h.symm, by omega⟩⟩
    · split at h
      · rename_i h2
        exact ⟨a, Nat.le_refl a, by omega, by omega, .inr ⟨by simpa using h.symm, h2.2, rfl, h2.1⟩⟩
      · rename_i h1 h2
        obtain ⟨b, hb1, hb2, hb3, hb4⟩ := ih h
        refine ⟨b, by omega, by omega, fun c hc1 hc2 => ?_, ?_⟩
        · by_cases e : c = a
          · subst e; exact ⟨by omega, fun hk => Nat.le_of_not_lt fun hlt => h2 ⟨hk, hlt⟩⟩
          · exact hb3 c (by omega) hc2
        · rcases hb4 with hb4 | ⟨_, hlt, rfl, hk⟩
          · exact .inl hb4
          · exact absurd ⟨hk, by omega⟩ h2

/-- What `afterCheck` does, once: the effect when every address passes, else one fault and nothing else. -/
theorem State.afterCheck_cases (s : State) (kind : AccessKind) (a k : Nat) (f : State → State) :
    (checkAccess kind a k = none ∧ s.afterCheck kind a k f = f s) ∨
      ∃ fault, checkAccess kind a k = some fault ∧ s.afterCheck kind a k f = s.takeFault fault := by
  unfold State.afterCheck
  cases h : checkAccess kind a k with
  | none => exact .inl ⟨rfl, rfl⟩
  | some fault => exact .inr ⟨fault, rfl, rfl⟩

end Sys2Proof.Machine
end

