-- ==== Sys2Proof/Laws/Registers.lean ====
section
/-! SUPPORT. The register file: a read after a write, the block fill, the flag writes. -/
namespace Sys2Proof.Machine

/-- A register read after a register write. -/
theorem State.reg_setReg (s : State) (x r : Nibble) (b : Byte) :
    (s.setReg x b).reg r = if r = x then b else s.reg r := by
  unfold State.reg State.setReg
  rw [Vector.getElem_set]
  by_cases h : r = x
  · simp [h]
  · have : x.toNat ≠ r.toNat := fun e => h (BitVec.eq_of_toNat_eq e.symm)
    simp [h, this]

@[simp] theorem State.reg_setReg_self (s : State) (x : Nibble) (b : Byte) : (s.setReg x b).reg x = b := by
  simp [State.reg_setReg]

theorem State.reg_setReg_ne (s : State) {x r : Nibble} (b : Byte) (h : r ≠ x) : (s.setReg x b).reg r = s.reg r := by
  simp [State.reg_setReg, h]

/-- The register file after a block fill: the listed bytes from index `k` on, the rest as before. -/
theorem getElem_fillRegs (bs : List Byte) (k : Nat) (v : Vector Byte 16) (r : Nat) (hr : r < 16) :
    (fillRegs bs k v)[r] = if h : k ≤ r ∧ r - k < bs.length then bs[r - k]'h.2 else v[r] := by
  induction bs generalizing k v with
  | nil => simp [fillRegs]
  | cons b bs ih =>
    rw [fillRegs, ih]
    by_cases h1 : k + 1 ≤ r
    · have e : r - k = (r - (k + 1)) + 1 := by omega
      have hk : k ≠ r := by omega
      by_cases h2 : r - (k + 1) < bs.length
      · have h3 : k ≤ r ∧ r - k < (b :: bs).length := ⟨by omega, by simp; omega⟩
        rw [dif_pos ⟨h1, h2⟩, dif_pos h3]
        simp [e]
      · have h3 : ¬(k ≤ r ∧ r - k < (b :: bs).length) := by simp; omega
        rw [dif_neg (by omega), dif_neg h3, Vector.getElem_setIfInBounds, if_neg hk]
    · rw [dif_neg (by omega), Vector.getElem_setIfInBounds]
      by_cases h2 : k = r
      · subst h2; simp
      · have : ¬ (k ≤ r ∧ r - k < (b :: bs).length) := by omega
        rw [dif_neg this, if_neg h2]

/-- The flag's byte is 1 or 0. -/
theorem flagByte_toNat (f : Bool) : (flagByte f).toNat = if f then 1 else 0 := by cases f <;> rfl

/-- What `writeResultAndFlag` leaves in each register: VF gets the flag and `V[x]` the result, and where they are one register the
later write stays (41_alu.md R133). -/
theorem State.reg_writeResultAndFlag (s : State) (x r : Nibble) (res : Byte) (flg : Bool) :
    (s.writeResultAndFlag x res flg).reg r =
      if r = vfIndex ∧ (x ≠ vfIndex ∨ s.cfg.vfWriteOrder = .flagLast) then flagByte flg
      else if r = x then res else s.reg r := by
  unfold State.writeResultAndFlag
  cases s.cfg.vfWriteOrder <;> simp only [State.reg_setReg] <;> by_cases h1 : r = vfIndex <;> by_cases h2 : x = vfIndex <;>
    by_cases h3 : r = x <;> simp_all

/-- `writeResultAndFlag` changes the registers alone. -/
theorem State.writeResultAndFlag_eq (s : State) (x : Nibble) (res : Byte) (flg : Bool) :
    ∃ v, s.writeResultAndFlag x res flg = { s with v := v } := by
  unfold State.writeResultAndFlag
  cases s.cfg.vfWriteOrder <;> exact ⟨_, rfl⟩

/-- What `updateCollision` leaves in each register (43_display.md R203). -/
theorem State.reg_updateCollision (s : State) (coll : Bool) (r : Nibble) :
    (s.updateCollision coll).reg r =
      if r = vfIndex then (if coll then 1 else if s.cfg.drwClearsVf then 0 else s.reg vfIndex) else s.reg r := by
  unfold State.updateCollision
  cases s.cfg.drwClearsVf <;> cases coll <;> by_cases h : r = vfIndex <;> simp [State.reg_setReg, flagByte, h]

/-- `updateCollision` changes the registers alone. -/
theorem State.updateCollision_eq (s : State) (coll : Bool) : ∃ v, s.updateCollision coll = { s with v := v } := by
  unfold State.updateCollision
  cases s.cfg.drwClearsVf <;> cases coll <;> exact ⟨_, rfl⟩

end Sys2Proof.Machine
end

