-- ==== Sys2Proof/Laws/Display.lean ====
section
/-! SUPPORT. The framebuffer: a cell after a write, and what drawing a sprite does to each cell and to the collision. -/
namespace Sys2Proof.Machine

theorem Frame.cell_of_lt (fb : Frame) {x y : Nat} (hx : x < 64) (hy : y < 32) : fb.cell x y = fb[y][x] := by
  simp [Frame.cell, hx, hy]

theorem Frame.cell_outside (fb : Frame) {x y : Nat} (h : 63 < x ∨ 31 < y) : fb.cell x y = false := by
  unfold Frame.cell
  by_cases hx : x < 64
  · have hy : ¬ y < 32 := by omega
    simp [hx, hy]
  · simp [hx]

@[simp] theorem Frame.cell_clear (x y : Nat) : Frame.clear.cell x y = false := by
  by_cases hx : x < 64
  · by_cases hy : y < 32
    · rw [Frame.cell_of_lt _ hx hy]; simp [Frame.clear]
    · exact Frame.cell_outside _ (by omega)
  · exact Frame.cell_outside _ (by omega)

/-- Two framebuffers with the same cells are equal. -/
theorem Frame.ext_cell {f g : Frame} (h : ∀ x y, x ≤ 63 → y ≤ 31 → f.cell x y = g.cell x y) : f = g := by
  apply Vector.ext; intro y hy
  apply Vector.ext; intro x hx
  have := h x y (by omega) (by omega)
  rwa [Frame.cell_of_lt _ hx hy, Frame.cell_of_lt _ hx hy] at this

theorem Frame.cell_setCell (fb : Frame) {x y : Nat} (cx cy : Nat) (p : Bool) (hx : x ≤ 63) (hy : y ≤ 31) :
    (fb.setCell x y p).cell cx cy = if cx = x ∧ cy = y then p else fb.cell cx cy := by
  by_cases h : 63 < cx ∨ 31 < cy
  · have : ¬ (cx = x ∧ cy = y) := by omega
    rw [Frame.cell_outside _ h, if_neg this, Frame.cell_outside _ h]
  · have hcx : cx < 64 := by omega
    have hcy : cy < 32 := by omega
    have hy' : y < 32 := by omega
    rw [Frame.cell_of_lt _ hcx hcy, Frame.cell_of_lt _ hcx hcy]
    unfold Frame.setCell
    rw [Vector.getElem_setIfInBounds]
    by_cases e : y = cy
    · subst e
      simp only [if_true, Vector.getElem?_eq_getElem hcy, Option.getD_some, Vector.getElem_setIfInBounds]
      by_cases e2 : x = cx
      · subst e2; simp
      · have : ¬ (cx = x ∧ True) := fun h => e2 h.1.symm
        rw [if_neg e2, if_neg this]
    · have : ¬ (cx = x ∧ cy = y) := by omega
      rw [if_neg e, if_neg this]

/-- One pixel: it changes its own cell alone, and only inside the grid. -/
theorem cell_plotPixel (x y cx cy : Nat) (p : Bool) (c : Frame × Bool) (hx : cx ≤ 63) (hy : cy ≤ 31) :
    (plotPixel x y p c).1.cell cx cy = (c.1.cell cx cy ^^ (decide (cx = x ∧ cy = y) && p)) := by
  unfold plotPixel
  split
  · rename_i h
    rw [Frame.cell_setCell _ _ _ _ h.1 h.2]
    by_cases e : cx = x ∧ cy = y
    · rw [if_pos e, e.1, e.2]; simp
    · rw [if_neg e]; simp [e]
  · rename_i h
    have : ¬ (cx = x ∧ cy = y) := by omega
    simp [this]

/-- One pixel's collision: a set pixel on a set cell of the grid. -/
theorem collision_plotPixel (x y : Nat) (p : Bool) (c : Frame × Bool) :
    (plotPixel x y p c).2 = (c.2 || (p && c.1.cell x y)) := by
  unfold plotPixel
  split
  · rfl
  · rename_i h
    rw [Frame.cell_outside _ (by omega)]; simp

/-- The first `k` pixels of a row: the cells they cover are XOR-ed, and the collision is a set pixel on a cell set before. -/
theorem plotPixels_spec (x0 y : Nat) (row : Byte) (c : Frame × Bool) (k : Nat) :
    (∀ cx cy, cx ≤ 63 → cy ≤ 31 →
      ((List.range k).foldl (fun c i => plotPixel (x0 + i) y (row.getLsbD (7 - i)) c) c).1.cell cx cy =
        (c.1.cell cx cy ^^ (decide (x0 ≤ cx ∧ cx < x0 + k ∧ cy = y) && row.getLsbD (7 - (cx - x0))))) ∧
    (((List.range k).foldl (fun c i => plotPixel (x0 + i) y (row.getLsbD (7 - i)) c) c).2 = true ↔
      c.2 = true ∨ ∃ i, i < k ∧ row.getLsbD (7 - i) = true ∧ c.1.cell (x0 + i) y = true) := by
  induction k with
  | zero =>
    constructor
    · intro cx cy _ _
      have : ¬ (x0 ≤ cx ∧ cx < x0 + 0 ∧ cy = y) := by omega
      simp only [List.range_zero, List.foldl_nil, decide_eq_false this, Bool.false_and, Bool.xor_false]
    · simp
  | succ k ih =>
    obtain ⟨ih1, ih2⟩ := ih
    simp only [List.range_succ, List.foldl_append, List.foldl_cons, List.foldl_nil]
    generalize hd : (List.range k).foldl (fun c i => plotPixel (x0 + i) y (row.getLsbD (7 - i)) c) c = d at ih1 ih2
    constructor
    · intro cx cy hx hy
      rw [cell_plotPixel _ _ _ _ _ _ hx hy, ih1 cx cy hx hy]
      by_cases e : cx = x0 + k ∧ cy = y
      · obtain ⟨rfl, rfl⟩ := e
        simp
      · by_cases e2 : x0 ≤ cx ∧ cx < x0 + k ∧ cy = y
        · have : x0 ≤ cx ∧ cx < x0 + (k + 1) ∧ cy = y := by omega
          simp only [decide_eq_false e, decide_eq_true e2, decide_eq_true this, Bool.false_and, Bool.xor_false]
        · have : ¬ (x0 ≤ cx ∧ cx < x0 + (k + 1) ∧ cy = y) := by omega
          simp only [decide_eq_false e, decide_eq_false e2, decide_eq_false this, Bool.false_and, Bool.xor_false]
    · rw [collision_plotPixel]
      simp only [Bool.or_eq_true, Bool.and_eq_true, ih2]
      have hcell : d.1.cell (x0 + k) y = c.1.cell (x0 + k) y := by
        by_cases hg : x0 + k ≤ 63 ∧ y ≤ 31
        · rw [ih1 _ _ hg.1 hg.2]; simp
        · rw [Frame.cell_outside _ (by omega), Frame.cell_outside _ (by omega)]
      rw [hcell]
      constructor
      · rintro ((h | ⟨i, hi, h⟩) | h)
        · exact .inl h
        · exact .inr ⟨i, by omega, h⟩
        · exact .inr ⟨k, by omega, h⟩
      · rintro (h | ⟨i, hi, h⟩)
        · exact .inl (.inl h)
        · by_cases e : i = k
          · subst e; exact .inr h
          · exact .inl (.inr ⟨i, by omega, h⟩)

/-- A row of eight pixels. -/
theorem cell_plotRow (x0 y cx cy : Nat) (row : Byte) (c : Frame × Bool) (hx : cx ≤ 63) (hy : cy ≤ 31) :
    (plotRow x0 y row c).1.cell cx cy =
      (c.1.cell cx cy ^^ (decide (x0 ≤ cx ∧ cx < x0 + 8 ∧ cy = y) && row.getLsbD (7 - (cx - x0)))) :=
  (plotPixels_spec x0 y row c 8).1 cx cy hx hy

/-- The collision of a row of eight pixels. -/
theorem collision_plotRow (x0 y : Nat) (row : Byte) (c : Frame × Bool) :
    (plotRow x0 y row c).2 = true ↔ c.2 = true ∨ ∃ i, i < 8 ∧ row.getLsbD (7 - i) = true ∧ c.1.cell (x0 + i) y = true :=
  (plotPixels_spec x0 y row c 8).2

/-- The sprite's pixel at a cell, for rows from `y0` on: set when the cell lies in one of the rows' eight columns and the row's bit
there is set. -/
def rowsPixel (x0 y0 : Nat) (rows : List Byte) (cx cy : Nat) : Bool :=
  decide (x0 ≤ cx ∧ cx < x0 + 8 ∧ y0 ≤ cy) && ((rows[cy - y0]?).getD 0).getLsbD (7 - (cx - x0))

theorem rowsPixel_cons (x0 y0 : Nat) (row : Byte) (rows : List Byte) (cx cy : Nat) :
    rowsPixel x0 y0 (row :: rows) cx cy =
      ((decide (x0 ≤ cx ∧ cx < x0 + 8 ∧ cy = y0) && row.getLsbD (7 - (cx - x0))) ^^ rowsPixel x0 (y0 + 1) rows cx cy) := by
  unfold rowsPixel
  by_cases h1 : cy = y0
  · subst h1
    have : ¬ (x0 ≤ cx ∧ cx < x0 + 8 ∧ cy + 1 ≤ cy) := by omega
    simp
  · by_cases h2 : y0 + 1 ≤ cy
    · have e : cy - y0 = (cy - (y0 + 1)) + 1 := by omega
      have a1 : ¬ (x0 ≤ cx ∧ cx < x0 + 8 ∧ cy = y0) := by omega
      have a2 : (x0 ≤ cx ∧ cx < x0 + 8 ∧ y0 ≤ cy) ↔ (x0 ≤ cx ∧ cx < x0 + 8 ∧ y0 + 1 ≤ cy) := by omega
      simp [a1, a2, e]
    · have a1 : ¬ (x0 ≤ cx ∧ cx < x0 + 8 ∧ cy = y0) := by omega
      have a2 : ¬ (x0 ≤ cx ∧ cx < x0 + 8 ∧ y0 ≤ cy) := by omega
      have a3 : ¬ (x0 ≤ cx ∧ cx < x0 + 8 ∧ y0 + 1 ≤ cy) := by omega
      simp only [decide_eq_false a1, decide_eq_false a2, decide_eq_false a3, Bool.false_and, Bool.xor_false]

/-- What drawing rows does to each cell of the grid: it is XOR-ed with the sprite's pixel there. -/
theorem cell_plotRows (x0 cx cy : Nat) (rows : List Byte) (y0 : Nat) (c : Frame × Bool) (hx : cx ≤ 63) (hy : cy ≤ 31) :
    (plotRows x0 y0 rows c).1.cell cx cy = (c.1.cell cx cy ^^ rowsPixel x0 y0 rows cx cy) := by
  induction rows generalizing y0 c with
  | nil => simp [plotRows, rowsPixel]
  | cons row rows ih =>
    rw [plotRows, ih, cell_plotRow _ _ _ _ _ _ hx hy, rowsPixel_cons, Bool.xor_assoc]

/-- The collision of a draw: some cell of the grid was set and its sprite pixel is set too. -/
theorem collision_plotRows (x0 : Nat) (rows : List Byte) (y0 : Nat) (c : Frame × Bool) :
    (plotRows x0 y0 rows c).2 = true ↔
      c.2 = true ∨ ∃ cx cy, cx ≤ 63 ∧ cy ≤ 31 ∧ rowsPixel x0 y0 rows cx cy = true ∧ c.1.cell cx cy = true := by
  induction rows generalizing y0 c with
  | nil => simp [plotRows, rowsPixel]
  | cons row rows ih =>
    rw [plotRows, ih, collision_plotRow]
    have later : ∀ cx cy, cx ≤ 63 → cy ≤ 31 → rowsPixel x0 (y0 + 1) rows cx cy = true →
        (plotRow x0 y0 row c).1.cell cx cy = c.1.cell cx cy ∧ rowsPixel x0 y0 (row :: rows) cx cy = true := by
      intro cx cy hx hy h
      have h' : y0 + 1 ≤ cy := by
        simp only [rowsPixel, Bool.and_eq_true, decide_eq_true_eq] at h; omega
      have a1 : ¬ (x0 ≤ cx ∧ cx < x0 + 8 ∧ cy = y0) := by omega
      refine ⟨?_, ?_⟩
      · rw [cell_plotRow _ _ _ _ _ _ hx hy]; simp [a1]
      · rw [rowsPixel_cons, h]; simp [a1]
    constructor
    · rintro ((h | ⟨i, hi, hb, hc⟩) | ⟨cx, cy, hx, hy, hp, hc⟩)
      · exact .inl h
      · have hg : x0 + i ≤ 63 ∧ y0 ≤ 31 := by
          by_contra hn
          rw [Frame.cell_outside _ (by omega)] at hc; cases hc
        refine .inr ⟨x0 + i, y0, hg.1, hg.2, ?_, hc⟩
        have a1 : x0 ≤ x0 + i ∧ x0 + i < x0 + 8 ∧ y0 ≤ y0 := by omega
        simp only [rowsPixel, a1, Nat.sub_self, List.getElem?_cons_zero, Option.getD_some, Nat.add_sub_cancel_left, hb]
        rfl
      · obtain ⟨e1, e2⟩ := later cx cy hx hy hp
        exact .inr ⟨cx, cy, hx, hy, e2, e1 ▸ hc⟩
    · rintro (h | ⟨cx, cy, hx, hy, hp, hc⟩)
      · exact .inl (.inl h)
      · rw [rowsPixel_cons] at hp
        by_cases e : x0 ≤ cx ∧ cx < x0 + 8 ∧ cy = y0
        · have a3 : rowsPixel x0 (y0 + 1) rows cx cy = false := by
            have : ¬ (x0 ≤ cx ∧ cx < x0 + 8 ∧ y0 + 1 ≤ cy) := by omega
            simp only [rowsPixel, decide_eq_false this, Bool.false_and]
          have hb : row.getLsbD (7 - (cx - x0)) = true := by
            simpa only [decide_eq_true e, a3, Bool.true_and, Bool.xor_false] using hp
          refine .inl (.inr ⟨cx - x0, by omega, hb, ?_⟩)
          have : x0 + (cx - x0) = cx := by omega
          rw [this, ← e.2.2]; exact hc
        · have hp' : rowsPixel x0 (y0 + 1) rows cx cy = true := by
            simpa only [decide_eq_false e, Bool.false_and, Bool.false_xor] using hp
          exact .inr ⟨cx, cy, hx, hy, hp', (later cx cy hx hy hp').1 ▸ hc⟩

/-- The rows a DRW reads are the sprite of the statements. -/
theorem State.rowsPixel_eq_spriteBit (s : State) (x y n : Nibble) (cx cy : Nat) :
    rowsPixel (s.reg x).toNat (s.reg y).toNat (s.loadBytes s.base n.toNat) cx cy = s.spriteBit x y n cx cy := by
  unfold rowsPixel State.spriteBit
  by_cases h : (s.reg y).toNat ≤ cy ∧ cy < (s.reg y).toNat + n.toNat
  · have hl : cy - (s.reg y).toNat < (s.loadBytes s.base n.toNat).length := by simp; omega
    rw [List.getElem?_eq_getElem hl, Option.getD_some, State.getElem_loadBytes]
    have a : ((s.reg x).toNat ≤ cx ∧ cx < (s.reg x).toNat + 8 ∧ (s.reg y).toNat ≤ cy) ↔
        ((s.reg x).toNat ≤ cx ∧ cx < (s.reg x).toNat + 8 ∧ (s.reg y).toNat ≤ cy ∧ cy < (s.reg y).toNat + n.toNat) := by omega
    simp only [a, State.base]
  · have a1 : ¬ ((s.reg x).toNat ≤ cx ∧ cx < (s.reg x).toNat + 8 ∧ (s.reg y).toNat ≤ cy ∧ cy < (s.reg y).toNat + n.toNat) := by
      omega
    by_cases h2 : (s.reg y).toNat ≤ cy
    · have hl : (s.loadBytes s.base n.toNat).length ≤ cy - (s.reg y).toNat := by simp; omega
      rw [List.getElem?_eq_none hl]
      simp [a1]
    · have a2 : ¬ ((s.reg x).toNat ≤ cx ∧ cx < (s.reg x).toNat + 8 ∧ (s.reg y).toNat ≤ cy) := by omega
      simp [a1, a2]

/-- `updateDrawFlag` changes the registers alone. -/
theorem State.updateDrawFlag_eq (s : State) (n : Nibble) (coll : Bool) : ∃ v, s.updateDrawFlag n coll = { s with v := v } := by
  unfold State.updateDrawFlag
  split
  · exact ⟨_, rfl⟩
  · exact s.updateCollision_eq coll

/-- What `drawSprite` does, once: it changes the framebuffer, the registers and the events alone. -/
theorem State.drawSprite_eq (s : State) (x y n : Nibble) :
    ∃ v, s.drawSprite x y n =
      { s with
        fb := (plotRows (s.reg x).toNat (s.reg y).toNat (s.loadBytes s.base n.toNat) (s.fb, false)).1
        v := v
        events := s.events ++ [.displayChanged] } := by
  unfold State.drawSprite
  obtain ⟨v, hv⟩ := State.updateDrawFlag_eq
    ({ s with fb := (plotRows (s.reg x).toNat (s.reg y).toNat (s.loadBytes s.base n.toNat) (s.fb, false)).1 } : State) n
    (plotRows (s.reg x).toNat (s.reg y).toNat (s.loadBytes s.base n.toNat) (s.fb, false)).2
  exact ⟨v, by simp only [hv]; rfl⟩

/-- What `drawSprite` leaves in each register: VF alone can change, and only by a draw of at least one row. -/
theorem State.reg_drawSprite (s : State) (x y n r : Nibble) :
    (s.drawSprite x y n).reg r =
      if r = vfIndex ∧ n ≠ 0 then
        (if (plotRows (s.reg x).toNat (s.reg y).toNat (s.loadBytes s.base n.toNat) (s.fb, false)).2 then 1
          else if s.cfg.drwClearsVf then 0 else s.reg vfIndex)
      else s.reg r := by
  unfold State.drawSprite State.updateDrawFlag
  rw [State.notifyDisplay_reg]
  by_cases h : n = 0
  · simp only [h, if_true, ne_eq, not_true, and_false, if_false]; rfl
  · simp only [h, if_false, ne_eq, not_false_eq_true, and_true, State.reg_updateCollision]; rfl

end Sys2Proof.Machine
end

