-- ==== Sys2Proof/Laws/Exec.lean ====
section
/-! SUPPORT. What one instruction, one cycle and one step can do, said once. -/
namespace Sys2Proof.Machine

/-- What a completed instruction may have changed: the spec's own parts but `alert`, and the events; `run` only by LD Vx, K. -/
def Completed (i : Instr) (s t : State) : Prop :=
  t = { s with
    mem := t.mem, v := t.v, i := t.i, pc := t.pc, stack := t.stack, dt := t.dt, st := t.st, fb := t.fb, run := t.run
    events := t.events } ∧
  (t.run = s.run ∨ ∃ x, i = .ldKey x ∧ t.run = .awaitingKey x)

theorem afterCheck_completed {i : Instr} {s : State} {kind : AccessKind} {a k : Nat} {f : State → State}
    (h : Completed i s (f s)) :
    (∃ fault, s.afterCheck kind a k f = s.takeFault fault) ∨ Completed i s (s.afterCheck kind a k f) := by
  rcases s.afterCheck_cases kind a k f with ⟨_, e⟩ | ⟨fault, _, e⟩
  · exact .inr (e ▸ h)
  · exact .inl ⟨fault, e⟩

theorem storeBytes_completed (i : Instr) (s : State) (a : Nat) (bs : List Byte) : Completed i s (s.storeBytes a bs) := by
  obtain ⟨m, h⟩ := State.storeBytes_eq bs s a
  rw [h]; exact ⟨rfl, .inl rfl⟩

theorem writeResultAndFlag_completed (i : Instr) (s : State) (x : Nibble) (res : Byte) (flg : Bool) :
    Completed i s (s.writeResultAndFlag x res flg) := by
  obtain ⟨v, h⟩ := s.writeResultAndFlag_eq x res flg
  rw [h]; exact ⟨rfl, .inl rfl⟩

theorem drawSprite_completed (i : Instr) (s : State) (x y n : Nibble) : Completed i s (s.drawSprite x y n) := by
  obtain ⟨v, h⟩ := s.drawSprite_eq x y n
  rw [h]; exact ⟨rfl, .inl rfl⟩

/-- Every instruction answers a next state, in which it took a fault or completed. -/
theorem exec_cases (i : Instr) (s : State) :
    ∃ t, exec i s = .next t ∧ ((∃ k, t = s.takeFault k) ∨ Completed i s t) := by
  cases i with
  | ret =>
    refine ⟨_, rfl, ?_⟩
    cases s.stack with
    | nil => exact .inl ⟨_, rfl⟩
    | cons top rest => exact .inr ⟨rfl, .inl rfl⟩
  | call nnn =>
    refine ⟨_, rfl, ?_⟩
    by_cases h : s.stackFull = true
    · rw [if_pos h]; exact .inl ⟨_, rfl⟩
    · rw [if_neg h]; exact .inr ⟨rfl, .inl rfl⟩
  | addI x =>
    refine ⟨_, rfl, ?_⟩
    by_cases h : s.indexSum x > 0xFFFF
    · rw [if_pos h]; exact .inl ⟨_, rfl⟩
    · rw [if_neg h]; exact .inr ⟨rfl, .inl rfl⟩
  | drw x y n => exact ⟨_, rfl, afterCheck_completed (drawSprite_completed _ s x y n)⟩
  | ldB x => exact ⟨_, rfl, afterCheck_completed (storeBytes_completed _ s _ _)⟩
  | stRegs x => exact ⟨_, rfl, afterCheck_completed (storeBytes_completed _ s _ _)⟩
  | ldRegs x => exact ⟨_, rfl, afterCheck_completed ⟨rfl, .inl rfl⟩⟩
  | addReg x y => exact ⟨_, rfl, .inr (writeResultAndFlag_completed _ s _ _ _)⟩
  | subReg x y => exact ⟨_, rfl, .inr (writeResultAndFlag_completed _ s _ _ _)⟩
  | shrReg x y => exact ⟨_, rfl, .inr (writeResultAndFlag_completed _ s _ _ _)⟩
  | subnReg x y => exact ⟨_, rfl, .inr (writeResultAndFlag_completed _ s _ _ _)⟩
  | shlReg x y => exact ⟨_, rfl, .inr (writeResultAndFlag_completed _ s _ _ _)⟩
  | ldKey x => exact ⟨_, rfl, .inr ⟨rfl, .inr ⟨x, rfl, rfl⟩⟩⟩
  | _ => exact ⟨_, rfl, .inr ⟨rfl, .inl rfl⟩⟩

/-- The cycle of a running core: the fetch faults, or the word is illegal, or its instruction runs and the cycle ends. -/
theorem State.cycle_cases (s : State) (inputs : CycleInputs) (h : s.run = .running) :
    (∃ k, s.fetch = .error k ∧
      s.cycle inputs =
        .next (({ s with events := [], inputs := inputs, cur := { addr := s.pc, op := none } } : State).takeFault k)) ∨
    (∃ op e, s.fetch = .ok op ∧ decode op = .error e ∧
      s.cycle inputs =
        .next ((({ s with events := [], inputs := inputs } : State).fetched op).takeFault (.decodeFailure op))) ∨
    (∃ op i t, s.fetch = .ok op ∧ decode op = .ok i ∧
      exec i (({ s with events := [], inputs := inputs } : State).fetched op) = .next t ∧
      s.cycle inputs = .next t.endCycle) := by
  have hc : s.cycle inputs = ({ s with events := [], inputs := inputs } : State).runInstr := by
    unfold State.cycle; rw [h]
  have hf : ({ s with events := [], inputs := inputs } : State).fetch = s.fetch := rfl
  rw [hc, State.runInstr, hf]
  cases hop : s.fetch with
  | error k => exact .inl ⟨k, rfl, rfl⟩
  | ok op =>
    cases hd : decode op with
    | error e => exact .inr (.inl ⟨op, e, rfl, hd, by simp only [hd]; rfl⟩)
    | ok i =>
      obtain ⟨t, ht, _⟩ := exec_cases i (({ s with events := [], inputs := inputs } : State).fetched op)
      refine .inr (.inr ⟨op, i, t, rfl, hd, ht, ?_⟩)
      simp only [hd]
      rw [show ({ ({ s with events := [], inputs := inputs } : State) with
        cur := { addr := s.pc, op := some op }, pc := s.pc + 2 } : State) =
          ({ s with events := [], inputs := inputs } : State).fetched op from rfl, ht]

/-- A cycle of a core that does not run changes nothing but the list of events, which it empties. -/
theorem State.cycle_not_running (s : State) (inputs : CycleInputs) (h : s.run ≠ .running) :
    s.cycle inputs = .next { s with events := [] } := by
  unfold State.cycle
  split
  · rfl
  · rfl
  · exact absurd ‹_› h

/-- The end of a cycle ticks a running core and leaves any other. -/
theorem State.endCycle_eq (s : State) : s.endCycle = if s.run = .running then s.tick else s := by
  unfold State.endCycle
  cases s.run <;> simp

/-- A fetch, taken apart: odd, out of range, or the big-endian word. -/
theorem State.fetch_cases (s : State) :
    (s.pc.toNat % 2 = 1 ∧ s.fetch = .error (.pcMisaligned s.pc)) ∨
    (s.pc.toNat % 2 = 0 ∧ 0xFFF < s.pc.toNat ∧ s.fetch = .error (.addressOutOfRange s.pc.toNat)) ∨
    (s.pc.toNat % 2 = 0 ∧ s.pc.toNat ≤ 0xFFE ∧
      s.fetch = .ok (wordOfBytes (s.readByte s.pc.toNat) (s.readByte (s.pc.toNat + 1)))) := by
  by_cases h1 : s.pc.toNat % 2 = 1
  · exact .inl ⟨h1, by simp [State.fetch, h1]⟩
  · by_cases h2 : 0xFFF < s.pc.toNat
    · exact .inr (.inl ⟨by omega, h2, by simp only [State.fetch, h1, if_false, checkAccess, gt_iff_lt, h2, if_true]⟩)
    · have hc : checkAccess .read s.pc.toNat 2 = none :=
        checkAccess_eq_none.2 fun b _ _ => ⟨by omega, fun h => nomatch h⟩
      exact .inr (.inr ⟨by omega, by omega, by simp only [State.fetch, h1, if_false, hc]⟩)

end Sys2Proof.Machine
end

