-- ==== Sys2Proof/Laws/Frames.lean ====
section
/-! SUPPORT. The frames of the single-part updates and of taking a fault, in the words of the statements (Safety). -/
namespace Sys2Proof.Machine

theorem keepsAllBut_refl (parts : List Part) (s : State) : KeepsAllBut parts s s := by
  intro p _; cases p <;> first | rfl | (intro _; rfl) | (intro _ _; rfl)

theorem KeepsAllBut.trans {parts : List Part} {s t u : State} (h1 : KeepsAllBut parts s t) (h2 : KeepsAllBut parts t u) :
    KeepsAllBut parts s u := by
  intro p hp
  have a := h1 p hp
  have b := h2 p hp
  cases p <;> first | exact b.trans a | exact fun c => (b c).trans (a c) | exact fun c d => (b c d).trans (a c d)

theorem KeepsAllBut.mono {ps qs : List Part} {s t : State} (h : KeepsAllBut ps s t) (hsub : ∀ p ∈ ps, p ∈ qs) :
    KeepsAllBut qs s t := fun p hp => h p fun hin => hp (hsub p hin)

theorem keepsAllBut_v (s : State) (v : Vector Byte 16) : KeepsAllBut [.regs] s { s with v := v } := by
  intro p hp; cases p <;> first | rfl | (intro _; rfl) | (intro _ _; rfl) | exact absurd (by simp) hp

theorem keepsAllBut_pc (s : State) (a : Word) : KeepsAllBut [.pc] s { s with pc := a } := by
  intro p hp; cases p <;> first | rfl | (intro _; rfl) | (intro _ _; rfl) | exact absurd (by simp) hp

theorem keepsAllBut_i (s : State) (a : Word) : KeepsAllBut [.i] s { s with i := a } := by
  intro p hp; cases p <;> first | rfl | (intro _; rfl) | (intro _ _; rfl) | exact absurd (by simp) hp

theorem keepsAllBut_mem (s : State) (m : Memory) : KeepsAllBut [.mem] s { s with mem := m } := by
  intro p hp; cases p <;> first | rfl | (intro _; rfl) | (intro _ _; rfl) | exact absurd (by simp) hp

theorem keepsAllBut_storeBytes (s : State) (a : Nat) (bs : List Byte) : KeepsAllBut [.mem] s (s.storeBytes a bs) := by
  obtain ⟨m, h⟩ := State.storeBytes_eq bs s a
  rw [h]; exact keepsAllBut_mem s m

theorem keepsAllBut_writeResultAndFlag (s : State) (x : Nibble) (res : Byte) (flg : Bool) :
    KeepsAllBut [.regs] s (s.writeResultAndFlag x res flg) := by
  obtain ⟨v, h⟩ := s.writeResultAndFlag_eq x res flg
  rw [h]; exact keepsAllBut_v s v

theorem regsKeptBut_setReg (s : State) (x : Nibble) (b : Byte) : RegsKeptBut [x] s (s.setReg x b) :=
  fun r hr => s.reg_setReg_ne b (by simpa using hr)

theorem bytesKeptOutside_storeBytes (s : State) (a : Nat) (bs : List Byte) :
    BytesKeptOutside a bs.length s (s.storeBytes a bs) := by
  intro b hb; rw [State.readByte_storeBytes, dif_neg (by omega)]

theorem haltsWith_takeFault (s : State) (k : FaultKind) : HaltsWith k s (s.takeFault k) := by
  refine ⟨rfl, rfl, rfl, fun p hp => ?_⟩
  cases p <;> first | rfl | (intro _; rfl) | (intro _ _; rfl) | exact absurd (by simp) hp

end Sys2Proof.Machine
end

