-- ==== Sys2Proof/Laws/PerInstr.lean ====
section
/-! SUPPORT. Family `RowOfWord`: the word of every instruction belongs to the instruction's own row of the opcode map
(30_encoding.md R80). -/
namespace Sys2Proof.Laws.RowOfWord

/-- The word of the instruction matches the row the opcode map gives the instruction (R80). -/
def Statement (i : Instr) : Prop := i.row.matchesWord (encode i) = true

theorem cls : Statement .cls := by unfold Statement; decide
theorem ret : Statement .ret := by unfold Statement; decide
theorem jp (nnn : Imm12) : Statement (.jp nnn) := by
  rw [Statement, matchesWord_iff]; refine (mask_family _).trans ?_
  rw [encode, toNat_wordNNN]; simp [Instr.row]; omega
theorem call (nnn : Imm12) : Statement (.call nnn) := by
  rw [Statement, matchesWord_iff]; refine (mask_family _).trans ?_
  rw [encode, toNat_wordNNN]; simp [Instr.row]; omega
theorem seImm (x : Nibble) (kk : Byte) : Statement (.seImm x kk) := by
  rw [Statement, matchesWord_iff]; refine (mask_family _).trans ?_
  rw [encode, toNat_wordXKK]; simp [Instr.row]; omega
theorem sneImm (x : Nibble) (kk : Byte) : Statement (.sneImm x kk) := by
  rw [Statement, matchesWord_iff]; refine (mask_family _).trans ?_
  rw [encode, toNat_wordXKK]; simp [Instr.row]; omega
theorem seReg (x : Nibble) (y : Nibble) : Statement (.seReg x y) := by
  rw [Statement, matchesWord_iff]; refine (mask_family _).trans ?_
  rw [encode, toNat_wordXYN]; simp [Instr.row]; omega
theorem ldImm (x : Nibble) (kk : Byte) : Statement (.ldImm x kk) := by
  rw [Statement, matchesWord_iff]; refine (mask_family _).trans ?_
  rw [encode, toNat_wordXKK]; simp [Instr.row]; omega
theorem addImm (x : Nibble) (kk : Byte) : Statement (.addImm x kk) := by
  rw [Statement, matchesWord_iff]; refine (mask_family _).trans ?_
  rw [encode, toNat_wordXKK]; simp [Instr.row]; omega
theorem ldReg (x : Nibble) (y : Nibble) : Statement (.ldReg x y) := by
  rw [Statement, matchesWord_iff]; refine (mask_family_n _).trans ?_
  rw [encode, toNat_wordXYN]; simp [Instr.row]; omega
theorem orReg (x : Nibble) (y : Nibble) : Statement (.orReg x y) := by
  rw [Statement, matchesWord_iff]; refine (mask_family_n _).trans ?_
  rw [encode, toNat_wordXYN]; simp [Instr.row]; omega
theorem andReg (x : Nibble) (y : Nibble) : Statement (.andReg x y) := by
  rw [Statement, matchesWord_iff]; refine (mask_family_n _).trans ?_
  rw [encode, toNat_wordXYN]; simp [Instr.row]; omega
theorem xorReg (x : Nibble) (y : Nibble) : Statement (.xorReg x y) := by
  rw [Statement, matchesWord_iff]; refine (mask_family_n _).trans ?_
  rw [encode, toNat_wordXYN]; simp [Instr.row]; omega
theorem addReg (x : Nibble) (y : Nibble) : Statement (.addReg x y) := by
  rw [Statement, matchesWord_iff]; refine (mask_family_n _).trans ?_
  rw [encode, toNat_wordXYN]; simp [Instr.row]; omega
theorem subReg (x : Nibble) (y : Nibble) : Statement (.subReg x y) := by
  rw [Statement, matchesWord_iff]; refine (mask_family_n _).trans ?_
  rw [encode, toNat_wordXYN]; simp [Instr.row]; omega
theorem shrReg (x : Nibble) (y : Nibble) : Statement (.shrReg x y) := by
  rw [Statement, matchesWord_iff]; refine (mask_family_n _).trans ?_
  rw [encode, toNat_wordXYN]; simp [Instr.row]; omega
theorem subnReg (x : Nibble) (y : Nibble) : Statement (.subnReg x y) := by
  rw [Statement, matchesWord_iff]; refine (mask_family_n _).trans ?_
  rw [encode, toNat_wordXYN]; simp [Instr.row]; omega
theorem shlReg (x : Nibble) (y : Nibble) : Statement (.shlReg x y) := by
  rw [Statement, matchesWord_iff]; refine (mask_family_n _).trans ?_
  rw [encode, toNat_wordXYN]; simp [Instr.row]; omega
theorem sneReg (x : Nibble) (y : Nibble) : Statement (.sneReg x y) := by
  rw [Statement, matchesWord_iff]; refine (mask_family _).trans ?_
  rw [encode, toNat_wordXYN]; simp [Instr.row]; omega
theorem ldI (nnn : Imm12) : Statement (.ldI nnn) := by
  rw [Statement, matchesWord_iff]; refine (mask_family _).trans ?_
  rw [encode, toNat_wordNNN]; simp [Instr.row]; omega
theorem jpV0 (nnn : Imm12) : Statement (.jpV0 nnn) := by
  rw [Statement, matchesWord_iff]; refine (mask_family _).trans ?_
  rw [encode, toNat_wordNNN]; simp [Instr.row]; omega
theorem rnd (x : Nibble) (kk : Byte) : Statement (.rnd x kk) := by
  rw [Statement, matchesWord_iff]; refine (mask_family _).trans ?_
  rw [encode, toNat_wordXKK]; simp [Instr.row]; omega
theorem drw (x : Nibble) (y : Nibble) (n : Nibble) : Statement (.drw x y n) := by
  rw [Statement, matchesWord_iff]; refine (mask_family _).trans ?_
  rw [encode, toNat_wordXYN]; simp [Instr.row]; omega
theorem skp (x : Nibble) : Statement (.skp x) := by
  rw [Statement, matchesWord_iff]; refine (mask_family_kk _).trans ?_
  rw [encode, toNat_wordXKK]; simp [Instr.row]; omega
theorem sknp (x : Nibble) : Statement (.sknp x) := by
  rw [Statement, matchesWord_iff]; refine (mask_family_kk _).trans ?_
  rw [encode, toNat_wordXKK]; simp [Instr.row]; omega
theorem ldFromDT (x : Nibble) : Statement (.ldFromDT x) := by
  rw [Statement, matchesWord_iff]; refine (mask_family_kk _).trans ?_
  rw [encode, toNat_wordXKK]; simp [Instr.row]; omega
theorem ldKey (x : Nibble) : Statement (.ldKey x) := by
  rw [Statement, matchesWord_iff]; refine (mask_family_kk _).trans ?_
  rw [encode, toNat_wordXKK]; simp [Instr.row]; omega
theorem ldDT (x : Nibble) : Statement (.ldDT x) := by
  rw [Statement, matchesWord_iff]; refine (mask_family_kk _).trans ?_
  rw [encode, toNat_wordXKK]; simp [Instr.row]; omega
theorem ldST (x : Nibble) : Statement (.ldST x) := by
  rw [Statement, matchesWord_iff]; refine (mask_family_kk _).trans ?_
  rw [encode, toNat_wordXKK]; simp [Instr.row]; omega
theorem addI (x : Nibble) : Statement (.addI x) := by
  rw [Statement, matchesWord_iff]; refine (mask_family_kk _).trans ?_
  rw [encode, toNat_wordXKK]; simp [Instr.row]; omega
theorem ldF (x : Nibble) : Statement (.ldF x) := by
  rw [Statement, matchesWord_iff]; refine (mask_family_kk _).trans ?_
  rw [encode, toNat_wordXKK]; simp [Instr.row]; omega
theorem ldB (x : Nibble) : Statement (.ldB x) := by
  rw [Statement, matchesWord_iff]; refine (mask_family_kk _).trans ?_
  rw [encode, toNat_wordXKK]; simp [Instr.row]; omega
theorem stRegs (x : Nibble) : Statement (.stRegs x) := by
  rw [Statement, matchesWord_iff]; refine (mask_family_kk _).trans ?_
  rw [encode, toNat_wordXKK]; simp [Instr.row]; omega
theorem ldRegs (x : Nibble) : Statement (.ldRegs x) := by
  rw [Statement, matchesWord_iff]; refine (mask_family_kk _).trans ?_
  rw [encode, toNat_wordXKK]; simp [Instr.row]; omega

end Sys2Proof.Laws.RowOfWord
end

