-- ==== Sys2Proof/Tests/Slice0.lean ====
section
/-! SUPPORT. Tests: ill-formed terms refused, a word of every instruction decoded, one or two vectors of 95_test_vectors.md per
instruction, and for every statement with hypotheses a witness that meets them. Expected values come from the spec's vectors. -/
namespace Sys2Proof.Tests
open Sys2Proof Sys2Proof.Machine

/- ## Helpers -/

/-- The outcome is a next state for which `p` holds. -/
def nextWhere (o : Host.Outcome State Fault Refusal) (p : State → Bool) : Bool :=
  match o with
  | .next t => p t
  | .fault _ => false
  | .refused _ => false

theorem exists_next {o : Host.Outcome State Fault Refusal} {p : State → Bool} (h : nextWhere o p = true) :
    ∃ t, o = .next t ∧ p t = true := by
  cases o with
  | next t => exact ⟨t, rfl, h⟩
  | fault r => cases r
  | refused r => cases h

/-- The word placed at `pc` of a state, and the host's next transaction a cycle with these inputs. -/
def withCycle (inputs : CycleInputs) (s : State) (w : Nat) : State :=
  ({ s with inbox := [.cycle inputs] } : State).withFetchWord 16 w

/-- One step on such a state ends in a next state for which `p` holds. No key is held and `rnd` is 0. -/
def runs (s : State) (w : Nat) (p : State → Bool) : Bool := nextWhere (step (withCycle CycleInputs.quiet s w)) p

/-- Key 5 held, and `rnd = 0xA7`. -/
def key5 : CycleInputs := { CycleInputs.quiet with pressed := CycleInputs.quiet.pressed.set 5 true }
def rndA7 : CycleInputs := { CycleInputs.quiet with rnd := 0xA7 }

/-- The reset state with `I`, or with one or two registers, set. -/
def withI (i : Word) : State := { State.reset with i := i }
def with1 (x : Nibble) (b : Byte) : State := State.reset.setReg x b
def with2 (x : Nibble) (b : Byte) (y : Nibble) (c : Byte) : State := (State.reset.setReg x b).setReg y c
def resultLast (s : State) : State := { s with cfg := { s.cfg with vfWriteOrder := .resultLast } }

/-- A core waiting for a key for V5, `pc` past the instruction, both timers at 3 (vector M30). -/
def waiting : State := { State.reset with pc := 0x202, dt := 3, st := 3, run := .awaitingKey 5 }
/-- A core halted by an odd `pc` (vector C1). -/
def oddRecord : FaultRecord := { kind := .pcMisaligned 0x201, pc := 0x201, op := none }
def halted : State := { State.reset with pc := 0x201, run := .halted oddRecord }

/- ## WellFormed: what each check refuses -/

theorem test_illegal_family0 : legalWord 0x01E0 = false := by decide
theorem test_illegal_family8 : legalWord 0x8008 = false := by decide
theorem test_illegal_familyE : legalWord 0xE09F = false := by decide
theorem test_illegal_familyF : legalWord 0xF01F = false := by decide
theorem test_resume_wf : (HostOp.resume 16).wf = false ∧ (HostOp.resume 15).wf = true := by decide
theorem load_wf_iff (image : List Byte) : (HostOp.load image).wf = true ↔ image.length ≤ 3584 := by simp [HostOp.wf]
theorem test_load_wf : (HostOp.load (List.replicate 3585 0)).wf = false ∧ (HostOp.load (List.replicate 3584 0)).wf = true :=
  ⟨Bool.eq_false_iff.2 fun h => absurd ((load_wf_iff _).1 h) (by rw [List.length_replicate]; omega),
    (load_wf_iff _).2 (by rw [List.length_replicate])⟩

/- ## Decoding: a word of every instruction, written out from the opcode map (30_encoding.md R80) -/

theorem test_decode_control :
    decode 0x1234 = .ok (.jp 0x234) ∧ decode 0x2300 = .ok (.call 0x300) ∧ decode 0x00EE = .ok .ret ∧
    decode 0xB300 = .ok (.jpV0 0x300) := by decide
theorem test_decode_skips :
    decode 0x322A = .ok (.seImm 2 0x2A) ∧ decode 0x422B = .ok (.sneImm 2 0x2B) ∧ decode 0x5120 = .ok (.seReg 1 2) ∧
    decode 0x9120 = .ok (.sneReg 1 2) ∧ decode 0xE39E = .ok (.skp 3) ∧ decode 0xE3A1 = .ok (.sknp 3) := by decide
theorem test_decode_arithmetic :
    decode 0x6A7B = .ok (.ldImm 0xA 0x7B) ∧ decode 0x7010 = .ok (.addImm 0 0x10) ∧ decode 0x8010 = .ok (.ldReg 0 1) ∧
    decode 0x8231 = .ok (.orReg 2 3) ∧ decode 0x8012 = .ok (.andReg 0 1) ∧ decode 0x8013 = .ok (.xorReg 0 1) := by decide
theorem test_decode_flags :
    decode 0x8014 = .ok (.addReg 0 1) ∧ decode 0x8015 = .ok (.subReg 0 1) ∧ decode 0x8016 = .ok (.shrReg 0 1) ∧
    decode 0x8217 = .ok (.subnReg 2 1) ∧ decode 0x865E = .ok (.shlReg 6 5) := by decide
theorem test_decode_index :
    decode 0xC30F = .ok (.rnd 3 0x0F) ∧ decode 0xA300 = .ok (.ldI 0x300) ∧ decode 0xF11E = .ok (.addI 1) ∧
    decode 0xF429 = .ok (.ldF 4) := by decide
theorem test_decode_transfer :
    decode 0xFA33 = .ok (.ldB 0xA) ∧ decode 0xF255 = .ok (.stRegs 2) ∧ decode 0xF265 = .ok (.ldRegs 2) ∧
    decode 0xF307 = .ok (.ldFromDT 3) ∧ decode 0xF315 = .ok (.ldDT 3) ∧ decode 0xF318 = .ok (.ldST 3) ∧
    decode 0xF50A = .ok (.ldKey 5) := by decide
theorem test_decode_display : decode 0x00E0 = .ok .cls ∧ decode 0xD125 = .ok (.drw 1 2 5) := by decide
/-- Vectors D1 to D14. -/
theorem test_decode_failures :
    ([0x0000, 0x0123, 0x00E1, 0x00EF, 0x01E0, 0x8008, 0x800D, 0x800F, 0xE000, 0xE09F, 0xE1A2, 0xF000, 0xF0FF, 0xF01F] : List Word).all
      (fun w => decide (decode w = .error (.decodeFailure w))) = true := by decide
theorem test_decodeTableWord : decodeTableWord 16 0x6A7B = some (.ldImm 0xA 0x7B) ∧ decodeTableWord 16 0xF01F = none := by decide

/- ## Control flow (95_test_vectors.md 2.1, the vector in each comment) -/

theorem test_jp : runs State.reset 0x1234 (fun t => t.pc == 0x234 && t.run == .running) = true := by decide   -- F1
theorem test_call : runs State.reset 0x2300 (fun t => t.pc == 0x300 && t.stack == [0x202]) = true := by decide   -- F3
theorem test_call_full :   -- F4
    runs { State.reset with stack := [0x202], cfg := { Config.defaults with stackLimit := some 1 } } 0x2300
      (fun t => t.run == .halted { kind := .stackOverflow 1, pc := 0x200, op := some 0x2300 } && t.pc == 0x200) = true := by
  decide
theorem test_ret :   -- F5
    runs { State.reset with pc := 0x300, stack := [0x202] } 0x00EE (fun t => t.pc == 0x202 && t.stack == []) = true := by decide
theorem test_ret_empty :   -- F6
    runs State.reset 0x00EE
      (fun t => t.run == .halted { kind := .stackUnderflow, pc := 0x200, op := some 0x00EE } && t.pc == 0x200) = true := by decide
theorem test_jpV0 : runs (with1 0 0xFF) 0xBFFF (fun t => t.pc == 0x10FE) = true := by decide   -- F8
theorem test_seImm : runs (with1 2 0x2A) 0x322A (fun t => t.pc == 0x204) = true := by decide   -- F9
theorem test_seImm_top :   -- F24
    runs { State.reset with pc := 0xFFE } 0x3000 (fun t => t.pc == 0x1002 && t.run == .running) = true := by decide
theorem test_sneImm : runs (with1 2 0x2A) 0x422B (fun t => t.pc == 0x204) = true := by decide   -- F12
theorem test_sneImm_equal : runs (with1 2 0x2A) 0x422A (fun t => t.pc == 0x202) = true := by decide   -- F11
theorem test_seReg : runs (with2 1 7 2 7) 0x5127 (fun t => t.pc == 0x204) = true := by decide   -- F14
theorem test_seReg_differ : runs (with2 1 7 2 8) 0x5120 (fun t => t.pc == 0x202) = true := by decide   -- F15
theorem test_sneReg : runs (with2 1 7 2 8) 0x9120 (fun t => t.pc == 0x204) = true := by decide   -- F16
theorem test_sneReg_same : runs (with1 1 7) 0x9110 (fun t => t.pc == 0x202) = true := by decide   -- F17
theorem test_skp :   -- F18
    nextWhere (step (withCycle key5 (with1 3 5) 0xE39E)) (fun t => t.pc == 0x204) = true := by decide
theorem test_skp_code_above_15 :   -- F22
    nextWhere (step (withCycle key5 (with1 3 0x15) 0xE39E)) (fun t => t.pc == 0x202) = true := by decide
theorem test_sknp :   -- F21
    nextWhere (step (withCycle key5 (with1 3 5) 0xE3A1)) (fun t => t.pc == 0x202) = true := by decide
theorem test_sknp_code_above_15 :   -- F23
    nextWhere (step (withCycle key5 (with1 3 0x15) 0xE3A1)) (fun t => t.pc == 0x204) = true := by decide

/- ## Arithmetic and logic (95_test_vectors.md 2.2) -/

theorem test_ldImm : runs State.reset 0x6A7B (fun t => t.reg 0xA == 0x7B && t.pc == 0x202) = true := by decide   -- A1
theorem test_addImm : runs (with1 0 0xF0) 0x7010 (fun t => t.reg 0 == 0 && t.reg 15 == 0) = true := by decide   -- A3
theorem test_addImm_vf : runs (with1 15 0xFF) 0x7F01 (fun t => t.reg 15 == 0) = true := by decide   -- A5
theorem test_ldReg : runs (with1 1 0x33) 0x8010 (fun t => t.reg 0 == 0x33) = true := by decide   -- A6
theorem test_orReg :   -- A11
    runs ((with2 0 1 1 2).setReg 15 1) 0x8011 (fun t => t.reg 0 == 3 && t.reg 15 == 1) = true := by decide
theorem test_andReg : runs (with2 0 0xF0 1 0x3C) 0x8012 (fun t => t.reg 0 == 0x30) = true := by decide   -- A8
theorem test_xorReg : runs (with2 0 0xF0 1 0x3C) 0x8013 (fun t => t.reg 0 == 0xCC) = true := by decide   -- A9
theorem test_addReg : runs (with2 0 0xFF 1 1) 0x8014 (fun t => t.reg 0 == 0 && t.reg 15 == 1) = true := by decide   -- A13
theorem test_addReg_vf :   -- A17, A18
    runs (with2 15 0xF0 1 0x20) 0x8F14 (fun t => t.reg 15 == 1) = true ∧
    runs (resultLast (with2 15 0xF0 1 0x20)) 0x8F14 (fun t => t.reg 15 == 0x10) = true := by decide
theorem test_subReg : runs (with2 0 0 1 1) 0x8015 (fun t => t.reg 0 == 0xFF && t.reg 15 == 0) = true := by decide   -- A22
theorem test_subReg_equal :   -- A21
    runs (with2 0 0x20 1 0x20) 0x8015 (fun t => t.reg 0 == 0 && t.reg 15 == 1) = true := by decide
theorem test_shrReg :   -- A27
    runs (with2 0 0xFF 1 4) 0x8016 (fun t => t.reg 0 == 2 && t.reg 15 == 0) = true := by decide
theorem test_shrReg_vf :   -- A29, A30
    runs (with1 15 2) 0x8FF6 (fun t => t.reg 15 == 0) = true ∧
    runs (resultLast (with1 15 2)) 0x8FF6 (fun t => t.reg 15 == 1) = true := by decide
theorem test_subnReg :   -- A31
    runs (with2 2 5 1 0x20) 0x8217 (fun t => t.reg 2 == 0x1B && t.reg 15 == 1) = true := by decide
theorem test_subnReg_borrow :   -- A32
    runs (with2 2 0x20 1 5) 0x8217 (fun t => t.reg 2 == 0xE5 && t.reg 15 == 0) = true := by decide
theorem test_shlReg : runs (with1 1 0x81) 0x801E (fun t => t.reg 0 == 2 && t.reg 15 == 1) = true := by decide   -- A34
theorem test_shlReg_noFlag :   -- A37
    runs (with1 1 0x40) 0x801E (fun t => t.reg 0 == 0x80 && t.reg 15 == 0) = true := by decide
theorem test_rnd : nextWhere (step (withCycle rndA7 State.reset 0xC30F)) (fun t => t.reg 3 == 7) = true := by decide   -- A39
theorem test_ldI : runs State.reset 0xAFFF (fun t => t.i == 0xFFF) = true := by decide   -- A43
theorem test_addI :   -- A45
    runs { with1 1 0x0F with i := 0xFFF0 } 0xF11E (fun t => t.i == 0xFFFF && t.run == .running) = true := by decide
theorem test_addI_overflow :   -- A46
    runs { with1 1 1 with i := 0xFFFF } 0xF11E
      (fun t => t.run == .halted { kind := .indexOverflow 0x10000, pc := 0x200, op := some 0xF11E } && t.i == 0xFFFF) = true := by
  decide

/- ## Memory, BCD, blocks, timers, keys (95_test_vectors.md 2.3) -/

theorem test_ldF : runs (with1 4 0xFF) 0xF429 (fun t => t.i == 0x4FB) = true := by decide   -- M4
theorem test_ldB :   -- M8
    runs { with1 0xA 7 with i := 0xFFD } 0xFA33
      (fun t => t.readByte 0xFFD == 0 && t.readByte 0xFFE == 0 && t.readByte 0xFFF == 7 && t.i == 0xFFD) = true := by decide
theorem test_ldB_faults :   -- M9, M10
    runs { with1 0xA 7 with i := 0xFFE } 0xFA33
      (fun t => t.run == .halted { kind := .addressOutOfRange 0x1000, pc := 0x200, op := some 0xFA33 }) = true ∧
    runs { with1 0xA 7 with i := 0x1FF } 0xFA33
      (fun t => t.run == .halted { kind := .reservedWrite 0x1FF, pc := 0x200, op := some 0xFA33 }) = true := by decide
theorem test_stRegs :   -- M12
    runs { (with2 0 1 1 2).setReg 2 3 with i := 0x400 } 0xF255
      (fun t => t.readByte 0x400 == 1 && t.readByte 0x401 == 2 && t.readByte 0x402 == 3 && t.i == 0x400) = true := by decide
theorem test_stRegs_reserved :   -- M16
    runs (withI 0x1FF) 0xF155
      (fun t => t.run == .halted { kind := .reservedWrite 0x1FF, pc := 0x200, op := some 0xF155 }) = true := by decide
theorem test_ldRegs :   -- M18
    runs (withI 0) 0xF465 (fun t => t.reg 0 == 0xF0 && t.reg 1 == 0x90 && t.reg 4 == 0xF0 && t.reg 5 == 0) = true := by decide
theorem test_ldRegs_range :   -- M19
    runs (withI 0xFF1) 0xFF65
      (fun t => t.run == .halted { kind := .addressOutOfRange 0x1000, pc := 0x200, op := some 0xFF65 }) = true := by decide
theorem test_ldFromDT : runs { State.reset with dt := 5 } 0xF307 (fun t => t.reg 3 == 5 && t.dt == 4) = true := by decide   -- M21
theorem test_ldDT : runs (with1 3 3) 0xF315 (fun t => t.dt == 2) = true := by decide   -- M23
theorem test_ldST : runs (with1 3 1) 0xF318 (fun t => t.st == 0 && t.alert) = true := by decide   -- M27
theorem test_ldST_after :   -- M28
    runs { with1 3 1 with cfg := { Config.defaults with alertSample := .after } } 0xF318
      (fun t => t.st == 0 && !t.alert) = true := by decide
theorem test_ldKey :   -- M30
    runs { State.reset with dt := 3, st := 3 } 0xF50A
      (fun t => t.run == .awaitingKey 5 && t.pc == 0x202 && t.dt == 3 && t.st == 3) = true := by decide
theorem test_ldKey_resume :   -- M31
    nextWhere (waiting.resume 9)
      (fun t => t.reg 5 == 9 && t.run == .running && t.dt == 2 && t.st == 2 && t.alert && t.pc == 0x202) = true := by decide

/- ## Display (95_test_vectors.md 2.5) -/

theorem test_cls :   -- G1
    runs { State.reset with fb := (State.reset.fb.setCell 0 0 true).setCell 63 31 true } 0x00E0
      (fun t => !t.fb.cell 0 0 && !t.fb.cell 63 31 && t.events == [.displayChanged]) = true := by decide
theorem test_drw :   -- G5
    runs { (withI 0x300).writeByte 0x300 0xFF with fb := State.reset.fb.setCell 3 0 true } 0xD011
      (fun t => t.fb.cell 0 0 && t.fb.cell 2 0 && !t.fb.cell 3 0 && t.fb.cell 7 0 && !t.fb.cell 8 0 && t.reg 15 == 1) = true := by
  decide
theorem test_drw_clips :   -- G9
    runs (((withI 0x300).writeByte 0x300 0xFF).setReg 0 60) 0xD011
      (fun t => t.fb.cell 60 0 && t.fb.cell 63 0 && !t.fb.cell 0 0 && !t.fb.cell 3 0 && t.reg 15 == 0) = true := by decide

/- ## The fetch, the tick, the fault codes, reset (95_test_vectors.md 2.4, 2.7; 60_exceptions.md R220) -/

theorem test_fetch_odd :   -- C1
    nextWhere ({ State.reset with pc := 0x201 }.cycle CycleInputs.quiet)
      (fun t => t.run == .halted oddRecord && t.pc == 0x201) = true := by decide
theorem test_fetch_range :   -- C3
    nextWhere ({ State.reset with pc := 0x10FE }.cycle CycleInputs.quiet)
      (fun t => t.run == .halted { kind := .addressOutOfRange 0x10FE, pc := 0x10FE, op := none }) = true := by decide
theorem test_tick :   -- T1
    runs { State.reset with dt := 3, st := 1 } 0x6000 (fun t => t.dt == 2 && t.st == 0 && t.alert) = true := by decide
theorem test_no_tick_on_fault :   -- T4
    runs { State.reset with dt := 3 } 0x0000 (fun t => t.dt == 3 && t.pc == 0x200) = true := by decide
theorem test_resume_16 : waiting.resume 16 = .refused .resumeRefused := by rfl   -- M33
theorem test_fault_codes :
    (FaultKind.decodeFailure 1).code = 1 ∧ FaultKind.stackUnderflow.code = 2 ∧ (FaultKind.addressOutOfRange 0x1000).code = 3 ∧
    (FaultKind.pcMisaligned 1).code = 4 ∧ (FaultKind.reservedWrite 0).code = 5 ∧ (FaultKind.indexOverflow 0x10000).code = 6 ∧
    (FaultKind.stackOverflow 16).code = 7 ∧ FaultKind.stackUnderflow.info = none ∧
    (FaultKind.stackOverflow 16).info = some 16 := by decide
theorem test_load :   -- R264: an odd-length image; the byte after it stays 0
    nextWhere (launch Config.defaults [0x60, 0x01, 0x12])
      (fun t => t.readByte 0x200 == 0x60 && t.readByte 0x202 == 0x12 && t.readByte 0x203 == 0) = true := by decide +kernel

/- ## Witnesses: a state and operands that meet the hypotheses of each statement, its clauses at their boundary values -/

/-- The word placed at `pc`. -/
def placed (s : State) (w : Nat) : State := s.withFetchWord 16 w

/-- A running core whose next word is `w` decodes it to `i`: the hypotheses most statements about a cycle share. -/
def fetches (s : State) (w : Nat) (i : Instr) : Bool :=
  decide ((placed s w).run = .running) && decide ((placed s w).fetch = .ok (BitVec.ofNat 16 w)) &&
    decide (decode (BitVec.ofNat 16 w) = .ok i)

theorem of_fetches {s : State} {w : Nat} {i : Instr} (h : fetches s w i = true) :
    (placed s w).run = .running ∧ (placed s w).fetch = .ok (BitVec.ofNat 16 w) ∧ decode (BitVec.ofNat 16 w) = .ok i := by
  simpa [fetches, and_assoc] using h

/-- A predicate of a next state, as the Boolean the helpers take. -/
theorem exists_next_where {o : Host.Outcome State Fault Refusal} (P : State → Prop) [DecidablePred P]
    (h : nextWhere o (fun t => decide (P t)) = true) : ∃ t, o = .next t ∧ P t := by
  obtain ⟨t, h1, h2⟩ := exists_next h
  exact ⟨t, h1, of_decide_eq_true h2⟩

theorem witness_EncodeOfDecode : decode 0x5127#16 = .ok (.seReg 1 2) ∧ decode 0x1234#16 = .ok (.jp 0x234) := by decide
theorem witness_DecoderFollowsOpcodeMap :
    decode 0x5127#16 = .ok (.seReg 1 2) ∧ (Instr.seReg 1 2).row.matchesWord 0x5127 = true ∧
    (Instr.seReg 3 4).row.matchesWord 0x5127 = true := by decide
theorem witness_IllegalWordsFailToDecode :
    State.reset.run = .running ∧ State.reset.fetch = .ok 0#16 ∧ legalWord 0#16 = false := by decide

theorem witness_StepRunsDecodedInstruction_named :
    ∃ (s s' : State) (inputs : CycleInputs) (i : Instr),
      (∃ rest, s.inbox = .cycle inputs :: rest ∧ s' = { s with inbox := rest, events := [], inputs := inputs }) ∧
      s.run = .running ∧ s.pc.toNat % 2 = 0 ∧ s.pc.toNat ≤ 0xFFE ∧
      decode (wordOfBytes (s.readByte s.pc.toNat) (s.readByte (s.pc.toNat + 1))) = .ok i :=
  ⟨withCycle key5 { State.reset with pc := 0xFFE } 0x6A7B, _, key5, .ldImm 0xA 0x7B, ⟨[], by rfl, rfl⟩, by decide, by decide,
    by decide, by decide⟩
theorem witness_StepRunsDecodedInstruction_free :
    ∃ (s s' : State) (inputs : CycleInputs) (i : Instr),
      (s.inbox = [] ∧ inputs = freeInputs s.freeCycles ∧
        s' = { s with freeCycles := s.freeCycles + 1, events := [], inputs := inputs }) ∧
      s.run = .running ∧ s.pc.toNat % 2 = 0 ∧ s.pc.toNat ≤ 0xFFE ∧
      decode (wordOfBytes (s.readByte s.pc.toNat) (s.readByte (s.pc.toNat + 1))) = .ok i :=
  ⟨placed State.reset 0x6A7B, _, _, .ldImm 0xA 0x7B, ⟨by rfl, rfl, rfl⟩, by decide, by decide, by decide, by decide⟩
theorem witness_FetchChecksAndReadsBigEndian :
    ({ State.reset with pc := 0x201 } : State).pc.toNat % 2 = 1 ∧
    (({ State.reset with pc := 0x1000 } : State).pc.toNat % 2 = 0 ∧ 0x1000 ≤ ({ State.reset with pc := 0x1000 } : State).pc.toNat) ∧
    (({ State.reset with pc := 0xFFE } : State).pc.toNat % 2 = 0 ∧ ({ State.reset with pc := 0xFFE } : State).pc.toNat < 0x1000) := by
  decide
theorem witness_AccessCheckFindsFirstFailure :
    checkAccess .read 0xFF0 16 = none ∧
    (0xFFE ≤ 0x1000 ∧ 0x1000 < 0xFFE + 3 ∧
      (∀ c, 0xFFE ≤ c → c < 0x1000 → c ≤ 0xFFF ∧ (AccessKind.write = .write → 0x200 ≤ c)) ∧ 0xFFF < 0x1000) ∧
    (0x1FF ≤ 0x1FF ∧ 0x1FF < 0x1FF + 2 ∧
      (∀ c, 0x1FF ≤ c → c < 0x1FF → c ≤ 0xFFF ∧ (AccessKind.write = .write → 0x200 ≤ c)) ∧ 0x1FF < 0x200) :=
  ⟨by decide, ⟨by omega, by omega, fun c h1 h2 => ⟨by omega, fun _ => by omega⟩, by omega⟩,
    by omega, by omega, fun c h1 h2 => by omega, by omega⟩
theorem witness_CycleFaultsBeforeExecution :
    ({ State.reset with pc := 0x201 } : State).run = .running ∧ ({ State.reset with pc := 0x201 } : State).pc.toNat % 2 = 1 ∧
    ({ State.reset with pc := 0x1000 } : State).pc.toNat % 2 = 0 ∧ 0x1000 ≤ ({ State.reset with pc := 0x1000 } : State).pc.toNat ∧
    State.reset.fetch = .ok 0#16 ∧ legalWord 0#16 = false := by decide
theorem witness_TickOncePerCompletedCycle :
    (State.reset.cfg.alertSample = .before ∧ { Config.defaults with alertSample := .after }.alertSample = .after) ∧
    (fetches State.reset 0x6A7B (.ldImm 0xA 0x7B) = true ∧
      ∃ u, exec (.ldImm 0xA 0x7B)
        (({ placed State.reset 0x6A7B with events := [], inputs := key5 } : State).fetched 0x6A7B) = .next u ∧ u.run = .running) ∧
    (fetches State.reset 0xF50A (.ldKey 5) = true ∧
      ∃ u, exec (.ldKey 5)
        (({ placed State.reset 0xF50A with events := [], inputs := key5 } : State).fetched 0xF50A) = .next u ∧ u.run ≠ .running) ∧
    (waiting.run = .awaitingKey 5 ∧ 15 ≤ 15) :=
  ⟨by decide, ⟨by decide, exists_next_where _ (by decide)⟩, ⟨by decide, exists_next_where _ (by decide)⟩, by decide⟩
theorem witness_ProgramCounterAfterCycle :
    (fetches (with1 3 5) 0xE39E (.skp 3) = true ∧
      ∃ t, (placed (with1 3 5) 0xE39E).cycle key5 = .next t ∧ t.run = .running) ∧
    (∃ t, waiting.resume 15 = .next t ∧ t.run = .running) :=
  ⟨⟨by decide, exists_next_where _ (by decide)⟩, exists_next_where _ (by decide)⟩
theorem witness_FetchSeesStoredBytes :
    ({ State.reset with pc := 0xFFE } : State).pc.toNat % 2 = 0 ∧ ({ State.reset with pc := 0xFFE } : State).pc.toNat ≤ 0xFFE := by
  decide

theorem witness_FaultsArePrecise :
    ∃ t, State.reset.run = .running ∧ State.reset.cycle key5 = .next t ∧
      t.run = .halted { kind := .decodeFailure 0, pc := 0x200, op := some 0 } :=
  have ⟨t, h1, h2⟩ := exists_next_where (o := State.reset.cycle key5)
    (fun t => t.run = .halted { kind := .decodeFailure 0, pc := 0x200, op := some 0 }) (by decide)
  ⟨t, rfl, h1, h2⟩
/-- One running state per fault kind, in the order of the statement, whose cycle halts with that kind. -/
def faulting : List (State × FaultKind) :=
  [(State.reset, .decodeFailure 0), (placed State.reset 0x00EE, .stackUnderflow),
   ({ State.reset with pc := 0x1000 }, .addressOutOfRange 0x1000), (placed (withI 0xFFE) 0xFA33, .addressOutOfRange 0x1000)] ++
  [({ State.reset with pc := 0x201 }, .pcMisaligned 0x201), (placed (withI 0x1FF) 0xFA33, .reservedWrite 0x1FF),
   (placed { with1 1 1 with i := 0xFFFF } 0xF11E, .indexOverflow 0x10000),
   (placed { State.reset with cfg := { Config.defaults with stackLimit := some 0 } } 0x2300, .stackOverflow 0)]
theorem witness_EveryFaultHasItsCause :
    faulting.all (fun c => decide (c.1.run = .running) && nextWhere (c.1.cycle key5)
      (fun t => match t.run with
        | .halted f => f.kind == c.2
        | .running => false
        | .awaitingKey _ => false)) = true := by decide
theorem witness_EveryFaultHasItsCause_depth :
    (placed { State.reset with cfg := { Config.defaults with stackLimit := some 0 } } 0x2300).Inv :=
  { mem_wf := by decide
    reserved_kept := fun a h => by
      refine (State.readByte_storeBytes [0x23, 0x00] { State.reset with cfg := { Config.defaults with stackLimit := some 0 } } 0x200 a).trans ?_
      rw [dif_neg (by omega)]; rfl
    pc_le := by decide
    stack_even := fun _ h => nomatch h
    stack_le := fun _ _ => Nat.zero_le _
    halted_pc := fun _ h => nomatch h }
theorem witness_OnlyResetLeavesHalted :
    halted.run = .halted oddRecord ∧
    ∃ t, step { halted with inbox := [.reset] } = .next t ∧ t.run ≠ .halted oddRecord :=
  ⟨rfl, exists_next_where _ (by decide)⟩
theorem witness_SuspendedCoreWaits :
    waiting.run = .awaitingKey 5 ∧
    (∃ t, step { waiting with inbox := [.reset] } = .next t ∧ t.run ≠ .awaitingKey 5) ∧
    (∃ t, step { waiting with inbox := [.resume 15] } = .next t ∧ t.run ≠ .awaitingKey 5) ∧
    (∀ op ∈ ({ waiting with inbox := [.cycle key5] } : State).inbox, op.isCycle = true) ∧
    (∃ t, step (withCycle key5 State.reset 0xF50A) = .next t ∧ t.run = .awaitingKey 5) :=
  ⟨rfl, exists_next_where _ (by decide), exists_next_where _ (by decide), by decide, exists_next_where _ (by decide)⟩
theorem witness_ResumeDeliversKey :
    (waiting.run = .awaitingKey 5 ∧ 15 ≤ 15) ∧ 15 < 16 ∧ (∀ x, State.reset.run ≠ .awaitingKey x) ∧
    ({ waiting with inbox := [.resume 15, .reset] } : State).inbox = .resume 15 :: [.reset] :=
  ⟨⟨rfl, Nat.le_refl 15⟩, by omega, fun _ => nofun, rfl⟩
theorem witness_ResetValues : 79 < 80 ∧ 80 ≤ 80 := by omega
theorem witness_ResetFromAnyState :
    ({ waiting with inbox := [.reset, .cycle key5] } : State).inbox = .reset :: [.cycle key5] ∧
    ({ halted with inbox := [.reset] } : State).inbox = .reset :: [] := ⟨rfl, rfl⟩
theorem witness_LoadPlacesImage :
    (List.replicate 3584 (0 : Byte)).length ≤ 3584 ∧ 3584 < (List.replicate 3585 (0 : Byte)).length ∧
    ¬ KeepsAllBut [.inbox, .freeCycles] (State.resetWith halted.cfg) halted ∧
    ({ halted with inbox := [.reset, .load [0x12, 0x00]] } : State).inbox = .reset :: .load [0x12, 0x00] :: [] ∧
    ({ waiting with inbox := [.load [0x12, 0x00], .reset] } : State).inbox = .load [0x12, 0x00] :: [.reset] :=
  ⟨by rw [List.length_replicate], by rw [List.length_replicate]; omega,
    fun h => absurd (h .run (by decide)) (show halted.run ≠ RunState.running from nofun), rfl, rfl⟩
theorem witness_StoppedRunIdles : (placed State.reset 0x1200).Stopped := ⟨by decide, by decide⟩

theorem witness_JumpSetsPc : (0xFFF#12).toNat % 2 = 1 ∧ (0xFFE#12).toNat % 2 = 0 := by decide
theorem witness_IndexedJumpSetsPc :
    (∃ t, exec (.jpV0 0x301) State.reset = .next t ∧ t.pc.toNat % 2 = 1) ∧
    (∃ t, exec (.jpV0 0xFFF) (with1 0 1) = .next t ∧ (t.pc.toNat % 2 = 0 ∧ 0x1000 ≤ t.pc.toNat)) :=
  ⟨exists_next_where _ (by decide), exists_next_where _ (by decide)⟩
theorem witness_CallPushesReturnAddress :
    (∀ limit, State.reset.cfg.stackLimit = some limit → State.reset.stack.length < limit) ∧
    ({ Config.defaults with stackLimit := some 1 }.stackLimit = some 1 ∧
      1 ≤ ({ State.reset with stack := [0x202] } : State).stack.length) :=
  ⟨fun _ h => (nomatch h), rfl, by decide⟩
theorem witness_ReturnPopsStack :
    ({ State.reset with stack := [0x202] } : State).stack = 0x202 :: [] ∧ State.reset.stack = [] ∧ State.reset.run = .running ∧
    ∃ t, exec .ret State.reset = .next t ∧ t.run = .halted { kind := .stackUnderflow, pc := 0x200, op := none } :=
  ⟨rfl, rfl, rfl, exists_next_where (fun t => t.run = .halted { kind := .stackUnderflow, pc := 0x200, op := none }) (by decide)⟩
theorem witness_ReturnUndoesCall :
    State.reset.stackFull = false ∧ ∃ t u : State, exec (.call 0x300) State.reset = .next t ∧ u.stack = t.stack :=
  ⟨rfl, _, _, rfl, rfl⟩
theorem witness_KeySkips : ((with1 3 15).reg 3).toNat ≤ 15 ∧ 15 < ((with1 3 16).reg 3).toNat := by decide
theorem witness_LogicBitByBit : 7 < 8 := by omega
theorem witness_AddRegistersWithCarry :
    (0 : Nibble) ≠ 15#4 ∧ (resultLast State.reset).cfg.vfWriteOrder = .resultLast ∧ State.reset.cfg.vfWriteOrder = .flagLast := by
  decide
theorem witness_SubtractWithNoBorrow :
    (14 : Nibble) ≠ 15#4 ∧ (resultLast State.reset).cfg.vfWriteOrder = .resultLast ∧ State.reset.cfg.vfWriteOrder = .flagLast := by
  decide
theorem witness_ShiftsMoveVyIntoVx :
    (14 : Nibble) ≠ 15#4 ∧ (resultLast State.reset).cfg.vfWriteOrder = .resultLast ∧ State.reset.cfg.vfWriteOrder = .flagLast := by
  decide
theorem witness_RandomByteIsMasked : 7 < 8 := by omega
theorem witness_AddIndexOrOverflow :
    (withI 0xFFFF).i.toNat + ((withI 0xFFFF).reg 1).toNat ≤ 0xFFFF ∧
    0xFFFF < ({ with1 1 1 with i := 0xFFFF } : State).i.toNat + (({ with1 1 1 with i := 0xFFFF } : State).reg 1).toNat := by decide

theorem witness_DecimalDigitsStored :
    (0x200 ≤ (withI 0x200).i.toNat ∧ (withI 0x200).i.toNat + 2 ≤ 0xFFF) ∧ (withI 0xFFD).i.toNat + 2 ≤ 0xFFF ∧
    (withI 0x1FF).i.toNat < 0x200 ∧ 0xFFF < (withI 0xFFE).i.toNat + 2 := by decide
theorem witness_RegisterBlockStored :
    (0x200 ≤ (withI 0x200).i.toNat ∧ (withI 0x200).i.toNat + (15#4).toNat ≤ 0xFFF) ∧ (withI 0xFF0).i.toNat + (15#4).toNat ≤ 0xFFF ∧
    (0#4 ≤ 15#4) ∧ (withI 0x1FF).i.toNat < 0x200 ∧ 0xFFF < (withI 0xFF1).i.toNat + (15#4).toNat := by decide
theorem witness_RegisterBlockLoaded :
    (withI 0xFF0).i.toNat + (15#4).toNat ≤ 0xFFF ∧ 0xFFF < (withI 0xFF1).i.toNat + (15#4).toNat := by decide
theorem witness_BlockStoreThenLoad :
    0x200 ≤ (withI 0xFF0).i.toNat ∧ (withI 0xFF0).i.toNat + (15#4).toNat ≤ 0xFFF ∧
    ∃ t u : State, exec (.stRegs 15#4) (withI 0xFF0) = .next t ∧ u.i = (withI 0xFF0).i ∧ ∀ a, u.readByte a = t.readByte a :=
  have ⟨t, h1, h2⟩ := exists_next_where (o := exec (.stRegs 15#4) (withI 0xFF0)) (fun t => t.i = (withI 0xFF0).i) (by decide)
  ⟨by decide, by decide, t, t, h1, h2, fun _ => rfl⟩
theorem witness_TickFollowsTimerTransfer :
    fetches State.reset 0xF315 (.ldDT 3) = true ∧ fetches State.reset 0xF318 (.ldST 3) = true ∧
    fetches State.reset 0xF307 (.ldFromDT 3) = true ∧ State.reset.cfg.alertSample = .before ∧
    { Config.defaults with alertSample := .after }.alertSample = .after := by decide
theorem witness_KeyWaitSuspendsThenCompletes : fetches State.reset 0xF50A (.ldKey 5) = true ∧ 15 ≤ 15 := by decide

theorem witness_DrawXorsSpriteIntoGrid :
    ((0#4 : Nibble) = 0#4 ∨ (withI 0xFFFF).i.toNat + (0#4).toNat ≤ 0x1000) ∧ (withI 0xFF1).i.toNat + (15#4).toNat ≤ 0x1000 ∧
    ((15#4 : Nibble) ≠ 0#4 ∧ 0x1000 < (withI 0xFF2).i.toNat + (15#4).toNat) ∧ 63 ≤ 63 ∧ 31 ≤ 31 := by decide
/-- `DRW_CLEARS_VF` set, and VF = 7. -/
def drwClearing : State := { with1 15 7 with cfg := { Config.defaults with drwClearsVf := true } }
theorem witness_DrawReportsCollision :
    (∃ t, exec (.drw 0 1 1) { withI 0 with fb := State.reset.fb.setCell 3 0 true } = .next t ∧ t.reg 15 = 1) ∧
    ({ withI 0 with fb := State.reset.fb.setCell 3 0 true } : State).collides 0 1 1 ∧
    (∃ t, exec (.drw 0 1 1) (withI 0) = .next t ∧ t.reg 15 = 0) ∧ ¬ (withI 0).collides 0 1 1 ∧
    (∃ t, exec (.drw 0 1 1) drwClearing = .next t ∧ t.reg 15 = 0) ∧
    (∃ t, exec (.drw 0 1 0) { drwClearing with i := 0xFFFF } = .next t ∧ t.reg 15 = 7) := by
  refine ⟨exists_next_where _ (by decide), ⟨3, 0, by decide, by decide, by decide, by decide⟩, exists_next_where _ (by decide), ?_,
    exists_next_where _ (by decide), exists_next_where _ (by decide)⟩
  rintro ⟨cx, cy, _, _, _, h⟩
  rw [show (withI 0).fb.cell cx cy = false from Frame.cell_clear cx cy] at h
  cases h
theorem witness_DrawTwiceRestores :
    ∃ t u w : State, (withI 0).i.toNat + (5#4).toNat ≤ 0x1000 ∧ exec (.drw 0 1 5) (withI 0) = .next t ∧ u.fb = t.fb ∧
      u.i = (withI 0).i ∧ u.reg 0 = (withI 0).reg 0 ∧ u.reg 1 = (withI 0).reg 1 ∧
      (∀ a, u.readByte a = (withI 0).readByte a) ∧ exec (.drw 0 1 5) u = .next w ∧
      (withI 0).spriteBit 0 1 5 0 0 = true ∧ (withI 0).fb.cell 0 0 = false ∧ u.cfg.drwClearsVf = false ∧ u.reg 15 = t.reg 15 := by
  obtain ⟨t, ht, h15⟩ := exists_next_where (o := exec (.drw 0 1 5) (withI 0)) (fun t => t.reg 15 = 0) (by decide)
  obtain ⟨w, hw, -⟩ := exec_cases (.drw 0 1 5) { withI 0 with fb := t.fb }
  exact ⟨t, { withI 0 with fb := t.fb }, w, by decide, ht, rfl, rfl, rfl, rfl, fun _ => rfl, hw, by decide, by decide, rfl, h15.symm⟩
theorem witness_DrawTwiceRestores_zero_byte :
    4 < (5#4).toNat ∧ (withI 0x1FC).readByte ((withI 0x1FC).i.toNat + 4) = 0 := by decide

theorem witness_OnlyNamedInstructionsWrite :
    (∃ t, exec (.stRegs 0) { with1 0 7 with i := 0x300 } = .next t ∧ t.mem ≠ (with1 0 7).mem) ∧
    (∃ t, exec (.ldI 0x300) State.reset = .next t ∧ t.i ≠ State.reset.i) ∧
    (∃ t, exec (.call 0x300) State.reset = .next t ∧ t.stack ≠ State.reset.stack) ∧
    (∃ t, exec (.ldDT 0) (with1 0 7) = .next t ∧ t.dt ≠ (with1 0 7).dt) ∧
    (∃ t, exec (.ldST 0) (with1 0 7) = .next t ∧ t.st ≠ (with1 0 7).st) ∧
    (∃ t, exec (.drw 0 1 1) (withI 0) = .next t ∧ t.fb.cell 0 0 ≠ (withI 0).fb.cell 0 0) ∧
    (∃ t, exec (.ldKey 0) State.reset = .next t ∧ t.run ≠ State.reset.run) :=
  ⟨exists_next_where _ (by decide), exists_next_where _ (by decide), exists_next_where _ (by decide),
    exists_next_where _ (by decide), exists_next_where _ (by decide), exists_next_where _ (by decide),
    exists_next_where _ (by decide)⟩
theorem witness_OnlyNamedInstructionsWriteRegisters :
    (∃ t, exec (.ldImm 3 7) State.reset = .next t ∧ t.reg 3 ≠ State.reset.reg 3) ∧
    (∃ t, exec (.addReg 0 0) (with1 0 0x80) = .next t ∧ t.reg 15 ≠ (with1 0 0x80).reg 15) ∧
    (∃ t, exec (.ldRegs 4) State.reset = .next t ∧ t.reg 4 ≠ State.reset.reg 4) :=
  ⟨exists_next_where _ (by decide), exists_next_where _ (by decide), exists_next_where _ (by decide)⟩
theorem witness_DisplayEventsOfCycle :
    (fetches State.reset 0x00E0 .cls = true ∧ ∃ t, (placed State.reset 0x00E0).cycle key5 = .next t ∧ t.run = .running) ∧
    (fetches (withI 0xFFF) 0xD012 (.drw 0 1 2) = true ∧
      ∃ t, (placed (withI 0xFFF) 0xD012).cycle key5 = .next t ∧ t.run ≠ .running) :=
  ⟨⟨by decide, exists_next_where _ (by decide)⟩, by decide, exists_next_where _ (by decide)⟩
theorem witness_NoInstructionReadsSoundTimer : (∀ x, Instr.cls ≠ .ldST x) ∧ Instr.ldST 3 = .ldST 3 := ⟨fun _ => nofun, rfl⟩
theorem witness_OnlyNamedInstructionsReadInputs :
    (∀ x kk, Instr.rnd 3 0x0F = .rnd x kk → State.reset.inputs.rnd = key5.rnd) ∧
    (∀ x, Instr.rnd 3 0x0F = .skp x ∨ Instr.rnd 3 0x0F = .sknp x → State.reset.inputs.pressed = key5.pressed) :=
  ⟨fun _ _ _ => rfl, fun _ h => by rcases h with h | h <;> cases h⟩
theorem witness_ReservedAreaNeverWritten :
    ∃ t, (placed (withI 0x200) 0xF055).cycle key5 = .next t ∧ (t.run = .running ∧ 0x1FF < 0x200) :=
  exists_next_where _ (by decide)
theorem witness_StepKeepsMachineInvariant :
    State.reset.Inv ∧ ∃ t, step State.reset = .next t := by
  refine ⟨⟨by decide, fun _ _ => rfl, by decide, fun e h => (nomatch h), fun _ h => (nomatch h), fun _ h => (nomatch h)⟩, ?_⟩
  exact ⟨_, rfl⟩

end Sys2Proof.Tests
end

section
/-! O56 (00_scope.md R14; 60_exceptions.md R242): putting other host inputs in a state before an instruction, or in what the
instruction leaves, comes to the same. One lemma per operation that branches or recurses; then the instructions, where RND reads
the random byte and SKP and SKNP read the keys. -/
namespace Sys2Proof.Machine

/-- The state with the host's inputs `inputs` latched in place of its own. -/
def State.withInputs (s : State) (inputs : CycleInputs) : State := { s with inputs := inputs }

@[simp] theorem State.withInputs_cfg (s : State) (inputs : CycleInputs) : (s.withInputs inputs).cfg = s.cfg := rfl
@[simp] theorem State.withInputs_stack (s : State) (inputs : CycleInputs) : (s.withInputs inputs).stack = s.stack := rfl
@[simp] theorem State.withInputs_stackFull (s : State) (inputs : CycleInputs) :
    (s.withInputs inputs).stackFull = s.stackFull := rfl
@[simp] theorem State.withInputs_indexSum (s : State) (inputs : CycleInputs) (x : Nibble) :
    (s.withInputs inputs).indexSum x = s.indexSum x := rfl

theorem State.storeBytes_withInputs (bs : List Byte) (s : State) (inputs : CycleInputs) (a : Nat) :
    (s.withInputs inputs).storeBytes a bs = (s.storeBytes a bs).withInputs inputs := by
  induction bs generalizing s a with
  | nil => rfl
  | cons b bs ih => exact ih (s.writeByte a b) (a + 1)

/-- The access check does not look at the inputs: an effect that is indifferent to them is so after the check too. -/
theorem State.afterCheck_withInputs (s : State) (inputs : CycleInputs) (kind : AccessKind) (a k : Nat) (f : State → State)
    (hf : f (s.withInputs inputs) = (f s).withInputs inputs) :
    (s.withInputs inputs).afterCheck kind a k f = (s.afterCheck kind a k f).withInputs inputs := by
  unfold State.afterCheck
  cases checkAccess kind a k with
  | none => exact hf
  | some fault => rfl

theorem State.writeResultAndFlag_withInputs (s : State) (inputs : CycleInputs) (x : Nibble) (res : Byte) (flg : Bool) :
    (s.withInputs inputs).writeResultAndFlag x res flg = (s.writeResultAndFlag x res flg).withInputs inputs := by
  rw [State.writeResultAndFlag, State.writeResultAndFlag, State.withInputs_cfg]
  cases s.cfg.vfWriteOrder <;> rfl

theorem State.updateCollision_withInputs (s : State) (inputs : CycleInputs) (coll : Bool) :
    (s.withInputs inputs).updateCollision coll = (s.updateCollision coll).withInputs inputs := by
  rw [State.updateCollision, State.updateCollision, State.withInputs_cfg]
  cases s.cfg.drwClearsVf <;> cases coll <;> rfl

theorem State.updateDrawFlag_withInputs (s : State) (inputs : CycleInputs) (n : Nibble) (coll : Bool) :
    (s.withInputs inputs).updateDrawFlag n coll = (s.updateDrawFlag n coll).withInputs inputs := by
  unfold State.updateDrawFlag
  split
  · rfl
  · exact s.updateCollision_withInputs inputs coll

theorem State.drawSprite_withInputs (s : State) (inputs : CycleInputs) (x y n : Nibble) :
    (s.withInputs inputs).drawSprite x y n = (s.drawSprite x y n).withInputs inputs :=
  let drawn := plotRows (s.reg x).toNat (s.reg y).toNat (s.loadBytes s.base n.toNat) (s.fb, false)
  congrArg State.notifyDisplay (State.updateDrawFlag_withInputs { s with fb := drawn.1 } inputs n drawn.2)

/-- The key query reads the keys of the inputs and no other part of them. -/
theorem State.keyHeld_withInputs {s : State} {inputs : CycleInputs} (h : s.inputs.pressed = inputs.pressed) (x : Nibble) :
    (s.withInputs inputs).keyHeld x = s.keyHeld x :=
  congrArg (fun keys : Vector Bool 16 => (keys[(s.reg x).toNat]?).getD false) h.symm

theorem execRet_withInputs (s : State) (inputs : CycleInputs) :
    execRet (s.withInputs inputs) = mapNext (·.withInputs inputs) (execRet s) := by
  rw [execRet, execRet, State.withInputs_stack]
  cases s.stack <;> rfl

theorem execCall_withInputs (nnn : Imm12) (s : State) (inputs : CycleInputs) :
    execCall nnn (s.withInputs inputs) = mapNext (·.withInputs inputs) (execCall nnn s) := by
  rw [execCall, execCall, State.withInputs_stackFull]
  cases s.stackFull <;> rfl

theorem execAddI_withInputs (x : Nibble) (s : State) (inputs : CycleInputs) :
    execAddI x (s.withInputs inputs) = mapNext (·.withInputs inputs) (execAddI x s) := by
  rw [execAddI, execAddI, State.withInputs_indexSum]
  by_cases hover : s.indexSum x > 0xFFFF
  · rw [if_pos hover, if_pos hover]; rfl
  · rw [if_neg hover, if_neg hover]; rfl

/-- An instruction does the same under other inputs that agree with the state's on what it reads: the random byte for RND, the keys
for SKP and SKNP, nothing for the rest. -/
theorem exec_withInputs (i : Instr) (s : State) (inputs : CycleInputs)
    (hrnd : ∀ x kk, i = .rnd x kk → s.inputs.rnd = inputs.rnd)
    (hkeys : ∀ x, i = .skp x ∨ i = .sknp x → s.inputs.pressed = inputs.pressed) :
    exec i (s.withInputs inputs) = mapNext (·.withInputs inputs) (exec i s) := by
  cases i with
  | rnd x kk =>
    exact congrArg (fun r => Host.Outcome.next ((s.withInputs inputs).setReg x (r &&& kk))) (hrnd x kk rfl).symm
  | skp x =>
    have hheld := State.keyHeld_withInputs (hkeys x (.inl rfl)) x
    exact congrArg (fun held => Host.Outcome.next ((s.withInputs inputs).skipIf held)) hheld
  | sknp x =>
    have hheld := State.keyHeld_withInputs (hkeys x (.inr rfl)) x
    exact congrArg (fun held => Host.Outcome.next ((s.withInputs inputs).skipIf (!held))) hheld
  | addReg x y => exact congrArg Host.Outcome.next (s.writeResultAndFlag_withInputs inputs x _ _)
  | subReg x y => exact congrArg Host.Outcome.next (s.writeResultAndFlag_withInputs inputs x _ _)
  | shrReg x y => exact congrArg Host.Outcome.next (s.writeResultAndFlag_withInputs inputs x _ _)
  | subnReg x y => exact congrArg Host.Outcome.next (s.writeResultAndFlag_withInputs inputs x _ _)
  | shlReg x y => exact congrArg Host.Outcome.next (s.writeResultAndFlag_withInputs inputs x _ _)
  | drw x y n => exact congrArg Host.Outcome.next (s.afterCheck_withInputs inputs _ _ _ _ (s.drawSprite_withInputs inputs x y n))
  | ldB x => exact congrArg Host.Outcome.next (s.afterCheck_withInputs inputs _ _ _ _ (s.storeBytes_withInputs _ inputs _))
  | stRegs x => exact congrArg Host.Outcome.next (s.afterCheck_withInputs inputs _ _ _ _ (s.storeBytes_withInputs _ inputs _))
  | ldRegs x => exact congrArg Host.Outcome.next (s.afterCheck_withInputs inputs _ _ _ _ rfl)
  | ret => exact execRet_withInputs s inputs
  | call nnn => exact execCall_withInputs nnn s inputs
  | addI x => exact execAddI_withInputs x s inputs
  -- the rest write some parts of the state with values that no input enters
  | _ => rfl

/-- Settles O56: it is `exec_withInputs`, whose cases show that RND alone uses `inputs.rnd` and SKP and SKNP alone use
`inputs.pressed`. -/
theorem onlyNamedInstructionsReadInputs : Obligations.OnlyNamedInstructionsReadInputs :=
  exec_withInputs

end Sys2Proof.Machine
end

section
/-! What one instruction can do (10_state.md R20 to R34), said once: `exec_effect` sorts the 34 instructions by the parts they
write, and each rule about a part is read off its few cases. -/
namespace Sys2Proof.Machine

/-- Where an instruction that does not fault leaves `pc`, from the state the fetch left (10_state.md R25). -/
def State.pcAfter (s : State) : Instr → Word
  | .jp nnn => addressOf nnn
  | .call nnn => addressOf nnn
  | .ret => s.stack.headD 0
  | .jpV0 nnn => s.indexedTarget nnn
  | .seImm x kk => (s.skipIf (s.reg x == kk)).pc
  | .sneImm x kk => (s.skipIf (s.reg x != kk)).pc
  | .seReg x y => (s.skipIf (s.reg x == s.reg y)).pc
  | .sneReg x y => (s.skipIf (s.reg x != s.reg y)).pc
  | .skp x => (s.skipIf (s.keyHeld x)).pc
  | .sknp x => (s.skipIf (!s.keyHeld x)).pc
  | _ => s.pc

/-- The instruction may change the register `r` (10_state.md R22, R23). -/
def MayWriteReg (r : Nibble) : Instr → Prop
  | .ldImm x _ | .addImm x _ | .ldReg x _ | .orReg x _ | .andReg x _ | .xorReg x _ | .rnd x _ | .ldFromDT x => r = x
  | .addReg x _ | .subReg x _ | .shrReg x _ | .subnReg x _ | .shlReg x _ => r = x ∨ r = vfIndex
  | .drw _ _ _ => r = vfIndex
  | .ldRegs x => r ≤ x
  | _ => False

/-- The register file `v` differs from the state's only where the instruction may write. -/
def RegsWrittenBy (i : Instr) (s : State) (v : Vector Byte 16) : Prop :=
  ∀ r, ({ s with v := v } : State).reg r ≠ s.reg r → MayWriteReg r i

/-- What an instruction can do to the state the fetch left: take a fault, or move `pc` and write the parts of its group. -/
inductive ExecEffect (i : Instr) (s : State) : State → Prop
  | fault (k : FaultKind) : ExecEffect i s (s.takeFault k)
  | control : ExecEffect i s { s with pc := s.pcAfter i }
  | push (hi : ∃ nnn, i = .call nnn) (hroom : s.stackFull = false) :
      ExecEffect i s { s with pc := s.pcAfter i, stack := s.pc :: s.stack }
  | pop (hi : i = .ret) (top : Word) (rest : List Word) (hstack : s.stack = top :: rest) :
      ExecEffect i s { s with pc := s.pcAfter i, stack := rest }
  | regs (v : Vector Byte 16) (hv : RegsWrittenBy i s v) : ExecEffect i s { s with pc := s.pcAfter i, v := v }
  | index (hi : (∃ nnn, i = .ldI nnn) ∨ (∃ x, i = .addI x) ∨ ∃ x, i = .ldF x) (a : Word) :
      ExecEffect i s { s with pc := s.pcAfter i, i := a }
  | store (hi : (∃ x, i = .ldB x) ∨ ∃ x, i = .stRegs x) (m : Memory) (a : Nat) (bs : List Byte)
      (hm : s.storeBytes a bs = { s with mem := m }) (hlow : 0x200 ≤ a) (hhigh : a + bs.length ≤ 0x1000) :
      ExecEffect i s { s with pc := s.pcAfter i, mem := m }
  | draw (hi : i = .cls ∨ ∃ x y n, i = .drw x y n) (fb : Frame) (v : Vector Byte 16) (hv : RegsWrittenBy i s v) :
      ExecEffect i s { s with pc := s.pcAfter i, fb := fb, v := v, events := s.events ++ [.displayChanged] }
  | delay (hi : ∃ x, i = .ldDT x) (b : Byte) : ExecEffect i s { s with pc := s.pcAfter i, dt := b }
  | sound (hi : ∃ x, i = .ldST x) (b : Byte) : ExecEffect i s { s with pc := s.pcAfter i, st := b }
  | wait (x : Nibble) (hi : i = .ldKey x) : ExecEffect i s { s with pc := s.pcAfter i, run := .awaitingKey x }

/- ## The effect of each group -/

theorem setReg_effect {i : Instr} {s : State} {x : Nibble} (b : Byte) (hpc : s.pcAfter i = s.pc) (hi : MayWriteReg x i) :
    ExecEffect i s (s.setReg x b) := by
  have hv : RegsWrittenBy i s (s.setReg x b).v := fun r hr => not_imp_comm.1 (s.reg_setReg_ne b) hr ▸ hi
  have he := ExecEffect.regs _ hv
  rwa [hpc] at he

theorem writeResultAndFlag_effect {i : Instr} {s : State} {x : Nibble} (res : Byte) (flg : Bool) (hpc : s.pcAfter i = s.pc)
    (hi : ∀ r, r = x ∨ r = vfIndex → MayWriteReg r i) : ExecEffect i s (s.writeResultAndFlag x res flg) := by
  obtain ⟨v, hv⟩ := s.writeResultAndFlag_eq x res flg
  have hregs : RegsWrittenBy i s v := by
    intro r hr
    rw [← hv, State.reg_writeResultAndFlag] at hr
    by_contra hn
    obtain ⟨hx, hvf⟩ := not_or.1 (mt (hi r) hn)
    exact hr (by rw [if_neg fun h => hvf h.1, if_neg hx])
  have he := ExecEffect.regs v hregs
  rwa [hpc, ← hv] at he

theorem afterCheck_effect {i : Instr} {s : State} {kind : AccessKind} {a k : Nat} {f : State → State}
    (h : checkAccess kind a k = none → ExecEffect i s (f s)) : ExecEffect i s (s.afterCheck kind a k f) := by
  rcases s.afterCheck_cases kind a k f with ⟨hcheck, e⟩ | ⟨fault, -, e⟩
  · exact e ▸ h hcheck
  · exact e ▸ .fault fault

/-- A checked store of at least one byte lies in 0x200..0xFFF (20_memory.md R55, R57). -/
theorem checkAccess_write_bounds {a k : Nat} (h : checkAccess .write a (k + 1) = none) : 0x200 ≤ a ∧ a + (k + 1) ≤ 0x1000 := by
  have hfirst := checkAccess_eq_none.1 h a (by omega) (by omega)
  have hlast := checkAccess_eq_none.1 h (a + k) (by omega) (by omega)
  exact ⟨hfirst.2 rfl, by omega⟩

theorem storeBytes_effect {i : Instr} {s : State} {a k : Nat} {bs : List Byte} (hi : (∃ x, i = .ldB x) ∨ ∃ x, i = .stRegs x)
    (hlen : bs.length = k + 1) (hcheck : checkAccess .write a (k + 1) = none) : ExecEffect i s (s.storeBytes a bs) := by
  obtain ⟨m, hm⟩ := State.storeBytes_eq bs s a
  obtain ⟨hlow, hhigh⟩ := checkAccess_write_bounds hcheck
  have hpc : s.pcAfter i = s.pc := by rcases hi with ⟨x, rfl⟩ | ⟨x, rfl⟩ <;> rfl
  have he := ExecEffect.store hi m a bs hm hlow (hlen ▸ hhigh)
  rwa [hpc, ← hm] at he

@[simp] theorem State.length_regsUpTo (s : State) (x : Nibble) : (s.regsUpTo x).length = x.toNat + 1 := by
  rw [State.regsUpTo, List.length_take, Vector.length_toList]
  exact min_eq_left x.isLt

theorem drawSprite_effect (s : State) (x y n : Nibble) : ExecEffect (.drw x y n) s (s.drawSprite x y n) := by
  obtain ⟨v, hv⟩ := s.drawSprite_eq x y n
  have hregs : RegsWrittenBy (.drw x y n) s v := by
    intro r hr
    have hread : (s.drawSprite x y n).reg r ≠ s.reg r := by rw [hv]; exact hr
    by_contra hn
    exact hread (by rw [State.reg_drawSprite, if_neg fun h => hn h.1])
  rw [hv]
  exact .draw (.inr ⟨x, y, n, rfl⟩) _ v hregs

/-- A block load up to `V[x]` leaves the registers above it. -/
theorem regsWrittenBy_ldRegs (s : State) (x : Nibble) :
    RegsWrittenBy (.ldRegs x) s (fillRegs (s.loadBytes s.base (x.toNat + 1)) 0 s.v) := by
  intro r hr
  by_contra hn
  have hlt : x.toNat < r.toNat := not_le.1 fun h => hn (BitVec.le_def.2 h)
  exact hr (by rw [State.reg, getElem_fillRegs, dif_neg (by rw [State.length_loadBytes]; omega)]; rfl)

/-- What each instruction does. -/
theorem exec_effect {i : Instr} {s t : State} (h : exec i s = .next t) : ExecEffect i s t := by
  cases i with
  | ldImm x _ | addImm x _ | ldReg x _ | orReg x _ | andReg x _ | xorReg x _ | rnd x _ | ldFromDT x =>
    cases h; exact setReg_effect _ rfl rfl
  | addReg x _ | subReg x _ | shrReg x _ | subnReg x _ | shlReg x _ =>
    cases h; exact writeResultAndFlag_effect _ _ rfl fun _ => id
  | jp _ | jpV0 _ | seImm _ _ | sneImm _ _ | seReg _ _ | sneReg _ _ | skp _ | sknp _ => cases h; exact .control
  | call nnn =>
    cases h
    cases hfull : s.stackFull with
    | true => exact .fault _
    | false => exact .push ⟨nnn, rfl⟩ hfull
  | ret =>
    cases h
    cases hstack : s.stack with
    | nil => exact .fault _
    | cons top rest =>
      have he := ExecEffect.pop (s := s) rfl top rest hstack
      rwa [State.pcAfter, hstack] at he
  | ldI nnn => cases h; exact .index (.inl ⟨nnn, rfl⟩) _
  | ldF x => cases h; exact .index (.inr (.inr ⟨x, rfl⟩)) _
  | addI x =>
    cases h
    by_cases hover : s.indexSum x > 0xFFFF
    · rw [if_pos hover]; exact .fault _
    · rw [if_neg hover]; exact .index (.inr (.inl ⟨x, rfl⟩)) _
  | cls => cases h; exact .draw (.inl rfl) _ s.v fun _ hr => absurd rfl hr
  | drw x y n => cases h; exact afterCheck_effect fun _ => drawSprite_effect s x y n
  | ldB x => cases h; exact afterCheck_effect (storeBytes_effect (.inl ⟨x, rfl⟩) rfl)
  | stRegs x => cases h; exact afterCheck_effect (storeBytes_effect (.inr ⟨x, rfl⟩) (s.length_regsUpTo x))
  | ldRegs x => cases h; exact afterCheck_effect fun _ => .regs _ (regsWrittenBy_ldRegs s x)
  | ldDT x => cases h; exact .delay ⟨x, rfl⟩ _
  | ldST x => cases h; exact .sound ⟨x, rfl⟩ _
  | ldKey x => cases h; exact .wait x rfl

end Sys2Proof.Machine
end

section
/-! O52 and O53 (10_state.md R22 to R33): which instructions write a part, read off the effects. -/
namespace Sys2Proof.Machine

section
variable {i : Instr} {s t : State}

theorem ExecEffect.mem_eq (h : ExecEffect i s t) : t.mem = s.mem ∨ (∃ x, i = .ldB x) ∨ ∃ x, i = .stRegs x := by
  cases h with
  | store hi => exact .inr hi
  | _ => exact .inl rfl

theorem ExecEffect.i_eq (h : ExecEffect i s t) : t.i = s.i ∨ (∃ nnn, i = .ldI nnn) ∨ (∃ x, i = .addI x) ∨ ∃ x, i = .ldF x := by
  cases h with
  | index hi => exact .inr hi
  | _ => exact .inl rfl

theorem ExecEffect.stack_eq (h : ExecEffect i s t) : t.stack = s.stack ∨ i = .ret ∨ ∃ nnn, i = .call nnn := by
  cases h with
  | push hi => exact .inr (.inr hi)
  | pop hi => exact .inr (.inl hi)
  | _ => exact .inl rfl

theorem ExecEffect.dt_eq (h : ExecEffect i s t) : t.dt = s.dt ∨ ∃ x, i = .ldDT x := by
  cases h with
  | delay hi => exact .inr hi
  | _ => exact .inl rfl

theorem ExecEffect.st_eq (h : ExecEffect i s t) : t.st = s.st ∨ ∃ x, i = .ldST x := by
  cases h with
  | sound hi => exact .inr hi
  | _ => exact .inl rfl

theorem ExecEffect.fb_eq (h : ExecEffect i s t) : t.fb = s.fb ∨ i = .cls ∨ ∃ x y n, i = .drw x y n := by
  cases h with
  | draw hi => exact .inr hi
  | _ => exact .inl rfl

theorem ExecEffect.run_eq (h : ExecEffect i s t) :
    t.run = s.run ∨ (∃ x, i = .ldKey x ∧ t.run = .awaitingKey x) ∨ ∃ f, t.run = .halted f := by
  cases h with
  | fault k => exact .inr (.inr ⟨_, rfl⟩)
  | wait x hi => exact .inr (.inl ⟨x, hi, rfl⟩)
  | _ => exact .inl rfl

/-- No instruction writes `alert` (the tick does), the configuration, or the model's own record but the events. -/
theorem ExecEffect.unwritten_eq (h : ExecEffect i s t) :
    t.alert = s.alert ∧ t.cfg = s.cfg ∧ t.inbox = s.inbox ∧ t.inputs = s.inputs ∧ t.cur = s.cur ∧
      t.freeCycles = s.freeCycles := by
  cases h <;> exact ⟨rfl, rfl, rfl, rfl, rfl, rfl⟩

theorem ExecEffect.reg_eq (h : ExecEffect i s t) (r : Nibble) : t.reg r = s.reg r ∨ MayWriteReg r i := by
  cases h with
  | regs v hv | draw _ _ v hv => exact or_iff_not_imp_left.2 (hv r)
  | _ => exact .inl rfl

/-- Where `pc` stands after an instruction, unless it took a fault. -/
theorem ExecEffect.pc_eq (h : ExecEffect i s t) : (∃ k, t = s.takeFault k) ∨ t.pc = s.pcAfter i := by
  cases h with
  | fault k => exact .inl ⟨k, rfl⟩
  | _ => exact .inr rfl

end

/-- Settles O52: each part is written by the effects of its own group alone. -/
theorem onlyNamedInstructionsWrite : Obligations.OnlyNamedInstructionsWrite := by
  intro i s t h
  have he := exec_effect h
  obtain ⟨halert, hcfg, hinbox, hinputs, hcur, hfree⟩ := he.unwritten_eq
  exact ⟨he.mem_eq.resolve_left, he.i_eq.resolve_left, he.stack_eq.resolve_left, he.dt_eq.resolve_left, he.st_eq.resolve_left,
    halert, he.fb_eq.resolve_left, he.run_eq.resolve_left, hcfg, hinbox, hinputs, hcur, hfree⟩

/-- Settles O53: a changed register is one the instruction may write, and `MayWriteReg` names those as the statement does. -/
theorem onlyNamedInstructionsWriteRegisters : Obligations.OnlyNamedInstructionsWriteRegisters := by
  intro i s t r h hr
  have hmay : MayWriteReg r i := ((exec_effect h).reg_eq r).resolve_left hr
  cases i <;> exact hmay

end Sys2Proof.Machine
end

section
/-! O15 (10_state.md R25): the value of `pc` after a cycle and after a resumption. -/
namespace Sys2Proof.Machine

@[simp] theorem State.endCycle_pc (s : State) : s.endCycle.pc = s.pc := by
  rw [State.endCycle_eq]; split <;> rfl

@[simp] theorem State.endCycle_readByte (s : State) (a : Nat) : s.endCycle.readByte a = s.readByte a := by
  rw [State.endCycle_eq]; split <;> rfl

/-- A cycle whose word decodes runs the instruction on the fetched state and then ends. -/
theorem State.cycle_effect {s t : State} {inputs : CycleInputs} {op : Word} {i : Instr} (hrun : s.run = .running)
    (hfetch : s.fetch = .ok op) (hdec : decode op = .ok i) (h : s.cycle inputs = .next t) :
    ∃ u, ExecEffect i (({ s with events := [], inputs := inputs } : State).fetched op) u ∧ t = u.endCycle := by
  rcases s.cycle_cases inputs hrun with ⟨k, hf, -⟩ | ⟨op', e, hf, hd, -⟩ | ⟨op', i', u, hf, hd, hexec, hc⟩
  · cases hfetch.symm.trans hf
  · cases hfetch.symm.trans hf
    cases hdec.symm.trans hd
  · cases hfetch.symm.trans hf
    cases hdec.symm.trans hd
    exact ⟨u, exec_effect hexec, Host.Outcome.next.inj (h.symm.trans hc)⟩

/-- The one transition of a resumption (60_exceptions.md R245). -/
theorem State.resume_eq_next {s t : State} {k : Nat} (h : s.resume k = .next t) :
    ∃ x, t = (({ s with events := [], run := .running } : State).setReg x (BitVec.ofNat 8 k)).tick := by
  unfold State.resume at h
  split at h
  next x _ =>
    split at h
    · exact ⟨x, (Host.Outcome.next.inj h).symm⟩
    · cases h
  · cases h
  · cases h

theorem State.keyHeld_iff (s : State) (x : Nibble) :
    s.keyHeld x = true ↔ s.inputs.pressed[(s.reg x).toNat]? = some true := by
  unfold State.keyHeld
  cases s.inputs.pressed[(s.reg x).toNat]? <;> simp

/-- A skip goes from the fetched state to `A + 4` or stays at `A + 2` (40_control_flow.md R104). -/
theorem State.skipIf_fetched_pc (s : State) (op : Word) {c : Bool} {p : Prop} [Decidable p] (h : c = true ↔ p) :
    ((s.fetched op).skipIf c).pc = if p then s.pc + 4 else s.pc + 2 := by
  rw [State.skipIf_pc, State.fetched_pc, BitVec.add_assoc]
  exact if_congr h rfl rfl

/-- Settles O15: `pcAfter` of the fetched state, case by case. -/
theorem programCounterAfterCycle : Obligations.ProgramCounterAfterCycle := by
  refine ⟨fun s t inputs op i hrun hfetch hdec hcycle hno => ?_, fun s t k h => ?_⟩
  · obtain ⟨u, he, rfl⟩ := State.cycle_effect hrun hfetch hdec hcycle
    rcases he.pc_eq with ⟨k, rfl⟩ | hpc
    · exact absurd rfl (hno _)
    rw [State.endCycle_pc, hpc]
    cases i with
    | jp nnn | call nnn => exact (BitVec.ofNat_toNat 16 nnn).symm
    | seImm | seReg => exact State.skipIf_fetched_pc _ op beq_iff_eq
    | sneImm | sneReg => exact State.skipIf_fetched_pc _ op bne_iff_ne
    | skp x => exact State.skipIf_fetched_pc _ op (State.keyHeld_iff _ x)
    | sknp x => exact State.skipIf_fetched_pc _ op (by rw [Bool.not_eq_true', ← Bool.not_eq_true, State.keyHeld_iff]; rfl)
    | _ => rfl
  · obtain ⟨x, rfl⟩ := State.resume_eq_next h
    rfl

end Sys2Proof.Machine
end

section
/-! O57 (20_memory.md R57): the access check keeps every store out of the reserved area. -/
namespace Sys2Proof.Machine

theorem State.readByte_storeBytes_reserved {s : State} {a b : Nat} (bs : List Byte) (hlow : 0x200 ≤ a) (hb : b < 0x200) :
    (s.storeBytes a bs).readByte b = s.readByte b :=
  bytesKeptOutside_storeBytes s a bs b (.inl (by omega))

theorem ExecEffect.readByte_reserved {i : Instr} {s t : State} {a : Nat} (h : ExecEffect i s t) (ha : a < 0x200) :
    t.readByte a = s.readByte a := by
  cases h with
  | store _ m b bs hm hlow =>
    have hread := State.readByte_storeBytes_reserved (s := s) bs hlow ha
    rw [hm] at hread
    exact hread
  | _ => rfl

/-- Settles O57: a core that does not run, or faults before execution, writes no byte; an instruction writes none below 0x200. -/
theorem reservedAreaNeverWritten : Obligations.ReservedAreaNeverWritten := by
  intro s t inputs a h ha
  by_cases hrun : s.run = .running
  · rcases s.cycle_cases inputs hrun with ⟨k, -, hc⟩ | ⟨op, e, -, -, hc⟩ | ⟨op, i, u, -, -, hexec, hc⟩ <;>
      cases h.symm.trans hc
    · rfl
    · rfl
    · rw [State.endCycle_readByte]
      exact (exec_effect hexec).readByte_reserved ha
  · cases h.symm.trans (s.cycle_not_running inputs hrun)
    rfl

end Sys2Proof.Machine
end

section
/-! O58 (10_state.md R27, R29, R35; 20_memory.md R57; 40_control_flow.md R102; 60_exceptions.md R230): the machine's invariant,
kept by each instruction's effect, then by each of the host's transactions. -/
namespace Sys2Proof.Machine

/- ## Updates that keep the invariant -/

/-- The invariant speaks of memory, the configuration, `pc`, the stack and `run` alone. -/
theorem State.Inv.congr {s t : State} (hs : s.Inv) (hmem : t.mem = s.mem) (hcfg : t.cfg = s.cfg) (hpc : t.pc = s.pc)
    (hstack : t.stack = s.stack) (hrun : t.run = s.run) : t.Inv where
  mem_wf := by rw [hmem, hcfg]; exact hs.mem_wf
  reserved_kept a ha := by rw [State.readByte, hmem, hcfg]; exact hs.reserved_kept a ha
  pc_le := by rw [hpc]; exact hs.pc_le
  stack_even := by rw [hstack]; exact hs.stack_even
  stack_le := by rw [hcfg, hstack]; exact hs.stack_le
  halted_pc := by rw [hrun, hpc]; exact hs.halted_pc

theorem State.Inv.takeFault {s : State} (hs : s.Inv) (haddr : s.cur.addr.toNat ≤ 0x10FE) (k : FaultKind) :
    (s.takeFault k).Inv :=
  { hs with
    pc_le := haddr
    halted_pc := fun _ hf => RunState.halted.inj hf ▸ rfl }

theorem State.Inv.storeBytes {s : State} (hs : s.Inv) {a : Nat} {bs : List Byte} (hlow : 0x200 ≤ a)
    (hhigh : a + bs.length ≤ 0x1000) : (s.storeBytes a bs).Inv := by
  have hwf := State.storeBytes_wf bs s a hs.mem_wf hhigh
  have hread : ∀ b, b < 0x200 → (s.storeBytes a bs).readByte b = resetByte s.cfg b := fun b hb =>
    (State.readByte_storeBytes_reserved bs hlow hb).trans (hs.reserved_kept b hb)
  obtain ⟨m, hm⟩ := State.storeBytes_eq bs s a
  rw [hm] at hwf hread ⊢
  exact { hs with mem_wf := hwf, reserved_kept := hread }

/-- A core that is not halted may move `pc` up to the bound. -/
theorem State.Inv.setPc {s : State} (hs : s.Inv) (hrun : s.run = .running) {a : Word} (ha : a.toNat ≤ 0x10FE) :
    ({ s with pc := a } : State).Inv :=
  { hs with
    pc_le := ha
    halted_pc := fun _ hf => by cases hrun.symm.trans hf }

theorem State.Inv.endCycle {s : State} (hs : s.Inv) : s.endCycle.Inv := by
  rw [State.endCycle_eq]
  split
  · exact hs.congr rfl rfl rfl rfl rfl
  · exact hs

theorem State.resetWith_inv (cfg : Config) : (State.resetWith cfg).Inv where
  mem_wf := Memory.wf_nil _
  reserved_kept _ _ := rfl
  pc_le := (by decide : (0x200 : Word).toNat ≤ 0x10FE)
  stack_even := nofun
  stack_le _ _ := Nat.zero_le _
  halted_pc := nofun

/- ## Instructions -/

theorem State.skipIf_pc_le {s : State} (hpc : s.pc.toNat ≤ 0x1000) (c : Bool) : (s.skipIf c).pc.toNat ≤ 0x10FE := by
  cases c with
  | false => exact le_trans hpc (by decide)
  | true => rw [State.skipIf_pc, if_pos rfl]; bv_omega

/-- The largest `pc` an instruction leaves is 0x10FE, by a JP V0 to 0xFFF + 0xFF (10_state.md R27). -/
theorem State.pcAfter_le {s : State} (hpc : s.pc.toNat ≤ 0x1000) (hstack : ∀ e ∈ s.stack, e.toNat ≤ 0x1000) (i : Instr) :
    (s.pcAfter i).toNat ≤ 0x10FE := by
  cases i with
  | jp nnn | call nnn =>
    have hn := nnn.isLt
    simp only [State.pcAfter, addressOf, BitVec.zeroExtend, BitVec.toNat_setWidth]; omega
  | jpV0 nnn =>
    have hn := nnn.isLt
    have hv := (s.reg 0).isLt
    simp only [State.pcAfter, State.indexedTarget, BitVec.toNat_ofNat]; omega
  | ret =>
    cases hs : s.stack with
    | nil => simp [State.pcAfter, hs]
    | cons top rest =>
      have htop := hstack top (by simp [hs])
      simp only [State.pcAfter, hs, List.headD_cons]; omega
  | seImm | sneImm | seReg | sneReg | skp | sknp => exact State.skipIf_pc_le hpc _
  | _ => exact le_trans hpc (by decide)

theorem State.length_lt_of_not_stackFull {s : State} {limit : Nat} (h : s.stackFull = false)
    (hl : s.cfg.stackLimit = some limit) : s.stack.length < limit := by
  simpa [State.stackFull, hl] using h

/-- An instruction keeps the invariant of a running core whose `pc` is the address after a fetch: even and at most 0x1000. -/
theorem ExecEffect.keeps_inv {i : Instr} {s t : State} (h : ExecEffect i s t) (hs : s.Inv) (hrun : s.run = .running)
    (heven : s.pc.toNat % 2 = 0) (hpc : s.pc.toNat ≤ 0x1000) (haddr : s.cur.addr.toNat ≤ 0x10FE) : t.Inv := by
  have hmoved : ({ s with pc := s.pcAfter i } : State).Inv :=
    hs.setPc hrun (State.pcAfter_le hpc (fun e he => (hs.stack_even e he).2) i)
  cases h with
  | fault k => exact hs.takeFault haddr k
  | store _ m a bs hm hlow hhigh =>
    have hstored : ({ s with mem := m } : State).Inv := hm ▸ hs.storeBytes hlow hhigh
    exact hstored.setPc hrun hmoved.pc_le
  | push _ hroom =>
    exact { hmoved with
      stack_even := List.forall_mem_cons.2 ⟨⟨heven, hpc⟩, hs.stack_even⟩
      stack_le := fun _ hl => State.length_lt_of_not_stackFull hroom hl }
  | pop _ top rest hstack =>
    obtain ⟨-, heven'⟩ := List.forall_mem_cons.1 (hstack ▸ hs.stack_even)
    have hlen : ∀ limit, s.cfg.stackLimit = some limit → (top :: rest).length ≤ limit := hstack ▸ hs.stack_le
    exact { hmoved with
      stack_even := heven'
      stack_le := fun limit hl => Nat.le_of_succ_le (hlen limit hl) }
  | wait x _ => exact { hmoved with halted_pc := nofun }
  | _ => exact hmoved.congr rfl rfl rfl rfl rfl

/- ## The host's transactions -/

theorem State.fetch_ok_pc {s : State} {op : Word} (h : s.fetch = .ok op) : s.pc.toNat % 2 = 0 ∧ s.pc.toNat ≤ 0xFFE := by
  rcases s.fetch_cases with ⟨-, e⟩ | ⟨-, -, e⟩ | ⟨heven, hle, -⟩
  · cases h.symm.trans e
  · cases h.symm.trans e
  · exact ⟨heven, hle⟩

/-- After a fetch `pc` is even and at most 0x1000. -/
theorem State.fetched_pc_bounds {s : State} {op : Word} (h : s.fetch = .ok op) :
    (s.fetched op).pc.toNat % 2 = 0 ∧ (s.fetched op).pc.toNat ≤ 0x1000 := by
  obtain ⟨heven, hle⟩ := State.fetch_ok_pc h
  rw [State.fetched_pc]
  exact ⟨by bv_omega, by bv_omega⟩

theorem State.Inv.fetched {s : State} (hs : s.Inv) (hrun : s.run = .running) {op : Word} (h : s.fetch = .ok op) :
    (s.fetched op).Inv :=
  (hs.setPc hrun (le_trans (State.fetched_pc_bounds h).2 (by decide))).congr rfl rfl rfl rfl rfl

theorem State.Inv.cycle {s t : State} {inputs : CycleInputs} (hs : s.Inv) (h : s.cycle inputs = .next t) : t.Inv := by
  by_cases hrun : s.run = .running
  · have hlatched : ({ s with events := [], inputs := inputs } : State).Inv := hs.congr rfl rfl rfl rfl rfl
    rcases s.cycle_cases inputs hrun with ⟨k, -, hc⟩ | ⟨op, e, hfetch, -, hc⟩ | ⟨op, i, u, hfetch, -, hexec, hc⟩ <;>
      cases h.symm.trans hc
    · refine State.Inv.takeFault ?_ hs.pc_le k
      exact hs.congr rfl rfl rfl rfl rfl
    · exact (hlatched.fetched hrun hfetch).takeFault hs.pc_le _
    · obtain ⟨heven, hle⟩ := State.fetched_pc_bounds (s := { s with events := [], inputs := inputs }) hfetch
      exact ((exec_effect hexec).keeps_inv (hlatched.fetched hrun hfetch) hrun heven hle hs.pc_le).endCycle
  · cases h.symm.trans (s.cycle_not_running inputs hrun)
    exact hs.congr rfl rfl rfl rfl rfl

theorem State.Inv.resume {s t : State} {k : Nat} (hs : s.Inv) (h : s.resume k = .next t) : t.Inv := by
  obtain ⟨x, rfl⟩ := State.resume_eq_next h
  exact { hs with halted_pc := nofun }

/-- The one transition of a load (70_reset_and_hazards.md R264). -/
theorem State.load_eq_next {s t : State} {image : List Byte} (h : s.load image = .next t) :
    image.length ≤ 3584 ∧ t = s.storeBytes 0x200 image := by
  unfold State.load at h
  split at h
  · split at h
    next hlen => exact ⟨hlen, (Host.Outcome.next.inj h).symm⟩
    · cases h
  · cases h

theorem State.Inv.load {s t : State} {image : List Byte} (hs : s.Inv) (h : s.load image = .next t) : t.Inv := by
  obtain ⟨hlen, rfl⟩ := State.load_eq_next h
  exact hs.storeBytes (le_refl _) (by omega)

theorem State.Inv.perform {s t : State} (hs : s.Inv) (op : HostOp) (h : s.perform op = .next t) : t.Inv := by
  cases op with
  | cycle inputs => exact hs.cycle h
  | resume k => exact hs.resume h
  | reset =>
    cases h
    exact (State.resetWith_inv s.cfg).congr rfl rfl rfl rfl rfl
  | load image => exact hs.load h

/-- Settles O58: whichever transaction the step performs keeps the invariant. -/
theorem stepKeepsMachineInvariant : Obligations.StepKeepsMachineInvariant := by
  intro s t hs h
  rw [step, State.transact] at h
  split at h
  · refine State.Inv.cycle ?_ h
    exact hs.congr rfl rfl rfl rfl rfl
  · refine State.Inv.perform ?_ _ h
    exact hs.congr rfl rfl rfl rfl rfl

end Sys2Proof.Machine
end

section
/-! O55 (10_state.md R31, R32): changing ST and `alert` before an instruction, or in what it leaves, comes to the same. As for the
host's inputs (O56): one lemma per operation that branches or recurses, then the instructions. -/
namespace Sys2Proof.Machine

/-- Change ST by `f` and `alert` by `g`. -/
def State.mapSound (f : Byte → Byte) (g : Bool → Bool) (s : State) : State := { s with st := f s.st, alert := g s.alert }

section
variable (f : Byte → Byte) (g : Bool → Bool)

@[simp] theorem State.mapSound_cfg (s : State) : (s.mapSound f g).cfg = s.cfg := rfl
@[simp] theorem State.mapSound_stack (s : State) : (s.mapSound f g).stack = s.stack := rfl
@[simp] theorem State.mapSound_stackFull (s : State) : (s.mapSound f g).stackFull = s.stackFull := rfl
@[simp] theorem State.mapSound_indexSum (s : State) (x : Nibble) : (s.mapSound f g).indexSum x = s.indexSum x := rfl

theorem State.storeBytes_mapSound (bs : List Byte) (s : State) (a : Nat) :
    (s.mapSound f g).storeBytes a bs = (s.storeBytes a bs).mapSound f g := by
  induction bs generalizing s a with
  | nil => rfl
  | cons b bs ih => exact ih (s.writeByte a b) (a + 1)

theorem State.afterCheck_mapSound (s : State) (kind : AccessKind) (a k : Nat) {e : State → State}
    (he : e (s.mapSound f g) = (e s).mapSound f g) :
    (s.mapSound f g).afterCheck kind a k e = (s.afterCheck kind a k e).mapSound f g := by
  unfold State.afterCheck
  cases checkAccess kind a k with
  | none => exact he
  | some fault => rfl

theorem State.writeResultAndFlag_mapSound (s : State) (x : Nibble) (res : Byte) (flg : Bool) :
    (s.mapSound f g).writeResultAndFlag x res flg = (s.writeResultAndFlag x res flg).mapSound f g := by
  unfold State.writeResultAndFlag
  rw [State.mapSound_cfg]
  cases s.cfg.vfWriteOrder <;> rfl

theorem State.updateDrawFlag_mapSound (s : State) (n : Nibble) (coll : Bool) :
    (s.mapSound f g).updateDrawFlag n coll = (s.updateDrawFlag n coll).mapSound f g := by
  unfold State.updateDrawFlag State.updateCollision
  rw [State.mapSound_cfg]
  split
  · rfl
  · cases s.cfg.drwClearsVf <;> cases coll <;> rfl

theorem State.drawSprite_mapSound (s : State) (x y n : Nibble) :
    (s.mapSound f g).drawSprite x y n = (s.drawSprite x y n).mapSound f g :=
  let drawn := plotRows (s.reg x).toNat (s.reg y).toNat (s.loadBytes s.base n.toNat) (s.fb, false)
  congrArg State.notifyDisplay (State.updateDrawFlag_mapSound f g { s with fb := drawn.1 } n drawn.2)

theorem execRet_mapSound (s : State) : execRet (s.mapSound f g) = mapNext (State.mapSound f g) (execRet s) := by
  unfold execRet
  rw [State.mapSound_stack]
  cases s.stack <;> rfl

theorem execCall_mapSound (nnn : Imm12) (s : State) :
    execCall nnn (s.mapSound f g) = mapNext (State.mapSound f g) (execCall nnn s) := by
  unfold execCall
  rw [State.mapSound_stackFull]
  cases s.stackFull <;> rfl

theorem execAddI_mapSound (x : Nibble) (s : State) :
    execAddI x (s.mapSound f g) = mapNext (State.mapSound f g) (execAddI x s) := by
  unfold execAddI
  rw [State.mapSound_indexSum]
  by_cases hover : s.indexSum x > 0xFFFF
  · rw [if_pos hover, if_pos hover]; rfl
  · rw [if_neg hover, if_neg hover]; rfl

/-- An instruction commutes with a change of ST and `alert`; LD ST, Vx, which overwrites ST, with a change of `alert` alone. -/
theorem exec_mapSound (i : Instr) (s : State) (hst : ∀ x, i = .ldST x → f = id) :
    exec i (s.mapSound f g) = mapNext (State.mapSound f g) (exec i s) := by
  cases i with
  | addReg x y | subReg x y | shrReg x y | subnReg x y | shlReg x y =>
    exact congrArg Host.Outcome.next (s.writeResultAndFlag_mapSound f g x _ _)
  | drw x y n => exact congrArg Host.Outcome.next (s.afterCheck_mapSound f g _ _ _ (s.drawSprite_mapSound f g x y n))
  | ldB x | stRegs x => exact congrArg Host.Outcome.next (s.afterCheck_mapSound f g _ _ _ (s.storeBytes_mapSound f g _ _))
  | ldRegs x => exact congrArg Host.Outcome.next (s.afterCheck_mapSound f g _ _ _ rfl)
  | ret => exact execRet_mapSound f g s
  | call nnn => exact execCall_mapSound f g nnn s
  | addI x => exact execAddI_mapSound f g x s
  | ldST x => cases hst x rfl; rfl
  -- the rest write some parts of the state with values that neither ST nor `alert` enters
  | _ => rfl

end

/-- Settles O55: `exec_mapSound` for a new `alert` and for a new ST; LD ST, Vx leaves the same state whatever ST was. -/
theorem noInstructionReadsSoundTimer : Obligations.NoInstructionReadsSoundTimer := by
  intro i s a b
  refine ⟨exec_mapSound id (fun _ => b) i s fun _ _ => rfl, fun hi => ?_, fun x hi => ?_⟩
  · exact exec_mapSound (fun _ => a) id i s fun x hx => absurd hx (hi x)
  · subst hi; rfl

end Sys2Proof.Machine
end

section
/-! O12 and O16 (20_memory.md R53, R55; 30_encoding.md R91): the fault of a failed access check is its first failing address's, and
the fetch reads memory as it stands. -/
namespace Sys2Proof.Machine

/-- The check answers the fault of the first address that may not be accessed: the failing address that `checkAccess_eq_some` names
can stand neither before `b` nor after it. -/
theorem checkAccess_of_first_failure {kind : AccessKind} {a k b : Nat} (hab : a ≤ b) (hbk : b < a + k)
    (hpass : ∀ c, a ≤ c → c < b → c ≤ 0xFFF ∧ (kind = .write → 0x200 ≤ c))
    (hfail : ¬(b ≤ 0xFFF ∧ (kind = .write → 0x200 ≤ b))) :
    checkAccess kind a k = some (.addressOutOfRange b) ∧ 0xFFF < b ∨
      checkAccess kind a k = some (.reservedWrite b) ∧ b < 0x200 := by
  cases hcheck : checkAccess kind a k with
  | none => exact absurd (checkAccess_eq_none.1 hcheck b hab hbk) hfail
  | some f =>
    obtain ⟨c, hac, -, hpass', hfault⟩ := checkAccess_eq_some hcheck
    rcases Nat.lt_trichotomy c b with hcb | rfl | hbc
    · obtain ⟨hrange, hreserved⟩ := hpass c hac hcb
      rcases hfault with ⟨-, hout⟩ | ⟨-, hlow, -, hwrite⟩
      · exact absurd hrange (Nat.not_le.2 hout)
      · exact absurd (hreserved hwrite) (Nat.not_le.2 hlow)
    · rcases hfault with ⟨rfl, hout⟩ | ⟨rfl, hlow, -⟩
      · exact .inl ⟨rfl, hout⟩
      · exact .inr ⟨rfl, hlow⟩
    · exact absurd (hpass' b hab hbc) hfail

/-- Settles O12: `checkAccess_eq_none`, then `checkAccess_of_first_failure`, whose two faults exclude each other. -/
theorem accessCheckFindsFirstFailure : Obligations.AccessCheckFindsFirstFailure := by
  refine fun kind a k => ⟨checkAccess_eq_none, fun b hab hbk hpass => ⟨fun hout => ?_, fun hrange hwrite hlow => ?_⟩⟩
  · rcases checkAccess_of_first_failure hab hbk hpass fun h => Nat.not_le.2 hout h.1 with ⟨h, -⟩ | ⟨-, hlow⟩
    · exact h
    · omega
  · rcases checkAccess_of_first_failure hab hbk hpass fun h => Nat.not_le.2 hlow (h.2 hwrite) with ⟨-, hout⟩ | ⟨h, -⟩
    · omega
    · exact h

/-- From an even address below 0x1000 the fetch answers the big-endian word at `pc`. -/
theorem State.fetch_eq_ok {s : State} (heven : s.pc.toNat % 2 = 0) (hle : s.pc.toNat ≤ 0xFFE) :
    s.fetch = .ok (wordOfBytes (s.readByte s.pc.toNat) (s.readByte (s.pc.toNat + 1))) := by
  rcases s.fetch_cases with ⟨hodd, -⟩ | ⟨-, hout, -⟩ | ⟨-, -, hfetch⟩
  · omega
  · omega
  · exact hfetch

/-- Settles O16: a store leaves `pc`, so both fetches read at `pc` and `pc + 1`, where one byte is the stored one and the other is
unchanged. -/
theorem fetchSeesStoredBytes : Obligations.FetchSeesStoredBytes := by
  intro s b heven hle
  have hfetch (a : Nat) : (s.writeByte a b).fetch = .ok (wordOfBytes ((s.writeByte a b).readByte s.pc.toNat)
      ((s.writeByte a b).readByte (s.pc.toNat + 1))) := State.fetch_eq_ok (s := s.writeByte a b) heven hle
  constructor
  · rw [hfetch, State.readByte_writeByte, if_pos rfl, State.readByte_writeByte, if_neg (Nat.succ_ne_self _)]
    rfl
  · rw [hfetch, State.readByte_writeByte, if_neg (Nat.succ_ne_self _).symm, State.readByte_writeByte, if_pos rfl]
    rfl

end Sys2Proof.Machine
end

section
/-! O1 to O4 (30_encoding.md R71 to R83): the decoder against the opcode map. `Instr.withFields` is what a row makes of a word;
`decode_of_matchesWord` and `decode_followsMap` say once what the decoder answers on a word that a row matches and on any word. -/
namespace Sys2Proof

/-- The instruction of `i`'s row whose operands are the fields of `w` (30_encoding.md R71, R80). -/
def Instr.withFields (w : Word) : Instr → Instr
  | .cls => .cls
  | .ret => .ret
  | .jp _ => .jp (fieldNNN w)
  | .call _ => .call (fieldNNN w)
  | .seImm _ _ => .seImm (fieldX w) (fieldKK w)
  | .sneImm _ _ => .sneImm (fieldX w) (fieldKK w)
  | .seReg _ _ => .seReg (fieldX w) (fieldY w)
  | .ldImm _ _ => .ldImm (fieldX w) (fieldKK w)
  | .addImm _ _ => .addImm (fieldX w) (fieldKK w)
  | .ldReg _ _ => .ldReg (fieldX w) (fieldY w)
  | .orReg _ _ => .orReg (fieldX w) (fieldY w)
  | .andReg _ _ => .andReg (fieldX w) (fieldY w)
  | .xorReg _ _ => .xorReg (fieldX w) (fieldY w)
  | .addReg _ _ => .addReg (fieldX w) (fieldY w)
  | .subReg _ _ => .subReg (fieldX w) (fieldY w)
  | .shrReg _ _ => .shrReg (fieldX w) (fieldY w)
  | .subnReg _ _ => .subnReg (fieldX w) (fieldY w)
  | .shlReg _ _ => .shlReg (fieldX w) (fieldY w)
  | .sneReg _ _ => .sneReg (fieldX w) (fieldY w)
  | .ldI _ => .ldI (fieldNNN w)
  | .jpV0 _ => .jpV0 (fieldNNN w)
  | .rnd _ _ => .rnd (fieldX w) (fieldKK w)
  | .drw _ _ _ => .drw (fieldX w) (fieldY w) (fieldN w)
  | .skp _ => .skp (fieldX w)
  | .sknp _ => .sknp (fieldX w)
  | .ldFromDT _ => .ldFromDT (fieldX w)
  | .ldKey _ => .ldKey (fieldX w)
  | .ldDT _ => .ldDT (fieldX w)
  | .ldST _ => .ldST (fieldX w)
  | .addI _ => .addI (fieldX w)
  | .ldF _ => .ldF (fieldX w)
  | .ldB _ => .ldB (fieldX w)
  | .stRegs _ => .stRegs (fieldX w)
  | .ldRegs _ => .ldRegs (fieldX w)

@[simp] theorem Instr.row_withFields (w : Word) (i : Instr) : (i.withFields w).row = i.row := by cases i <;> rfl

/-- The word of an instruction has the instruction's operands in its fields. -/
@[simp] theorem Instr.withFields_encode (i : Instr) : i.withFields (encode i) = i := by
  cases i <;> simp [Instr.withFields, encode]

section
open Laws.RowOfWord

/-- The word of an instruction belongs to the instruction's row: the family `RowOfWord`, gathered. -/
theorem row_matchesWord_encode : ∀ i : Instr, i.row.matchesWord (encode i) = true
  | .cls => cls
  | .ret => ret
  | .jp nnn => jp nnn
  | .call nnn => call nnn
  | .seImm x kk => seImm x kk
  | .sneImm x kk => sneImm x kk
  | .seReg x y => seReg x y
  | .ldImm x kk => ldImm x kk
  | .addImm x kk => addImm x kk
  | .ldReg x y => ldReg x y
  | .orReg x y => orReg x y
  | .andReg x y => andReg x y
  | .xorReg x y => xorReg x y
  | .addReg x y => addReg x y
  | .subReg x y => subReg x y
  | .shrReg x y => shrReg x y
  | .subnReg x y => subnReg x y
  | .shlReg x y => shlReg x y
  | .sneReg x y => sneReg x y
  | .ldI nnn => ldI nnn
  | .jpV0 nnn => jpV0 nnn
  | .rnd x kk => rnd x kk
  | .drw x y n => drw x y n
  | .skp x => skp x
  | .sknp x => sknp x
  | .ldFromDT x => ldFromDT x
  | .ldKey x => ldKey x
  | .ldDT x => ldDT x
  | .ldST x => ldST x
  | .addI x => addI x
  | .ldF x => ldF x
  | .ldB x => ldB x
  | .stRegs x => stRegs x
  | .ldRegs x => ldRegs x

end

/- ## A row of each mask, as conditions on the fields (30_encoding.md R74, R80) -/

section
variable {w v : Word}

theorem matchesWord_whole : (⟨0xFFFF, v⟩ : OpcodeRow).matchesWord w = true ↔ w = v := by
  have hall : w &&& 0xFFFF#16 = w := BitVec.and_allOnes
  rw [OpcodeRow.matchesWord, beq_iff_eq]
  exact Eq.congr_left hall

theorem matchesWord_family (hv : v.toNat % 4096 = 0) :
    (⟨0xF000, v⟩ : OpcodeRow).matchesWord w = true ↔ (fieldF w).toNat = v.toNat / 4096 := by
  rw [matchesWord_iff]
  show (w &&& 0xF000#16).toNat = v.toNat ↔ _
  rw [mask_family, toNat_fieldF]; omega

theorem matchesWord_family_n (hv : v.toNat % 4096 < 16) :
    (⟨0xF00F, v⟩ : OpcodeRow).matchesWord w = true ↔ (fieldF w).toNat = v.toNat / 4096 ∧ (fieldN w).toNat = v.toNat % 16 := by
  rw [matchesWord_iff]
  show (w &&& 0xF00F#16).toNat = v.toNat ↔ _
  rw [mask_family_n, toNat_fieldF, toNat_fieldN]; omega

theorem matchesWord_family_kk (hv : v.toNat % 4096 < 256) :
    (⟨0xF0FF, v⟩ : OpcodeRow).matchesWord w = true ↔ (fieldF w).toNat = v.toNat / 4096 ∧ (fieldKK w).toNat = v.toNat % 256 := by
  rw [matchesWord_iff]
  show (w &&& 0xF0FF#16).toNat = v.toNat ↔ _
  rw [mask_family_kk, toNat_fieldF, toNat_fieldKK]; omega

end

/- ## The decoder -/

/-- A word that the row of `i` matches decodes to the instruction of that row with the word's fields. -/
theorem decode_of_matchesWord {i : Instr} {w : Word} (h : i.row.matchesWord w = true) : decode w = .ok (i.withFields w) := by
  cases i with
  | cls | ret => cases matchesWord_whole.1 h; rfl
  | jp | call | seImm | sneImm | seReg | ldImm | addImm | sneReg | ldI | jpV0 | rnd | drw =>
    have hF := (matchesWord_family (by decide)).1 h
    simp [decode, hF, Instr.withFields]
  | ldReg | orReg | andReg | xorReg | addReg | subReg | shrReg | subnReg | shlReg =>
    obtain ⟨hF, hN⟩ := (matchesWord_family_n (by decide)).1 h
    simp [decode, decodeFamily8, hF, hN, Instr.withFields]
  | skp | sknp =>
    obtain ⟨hF, hKK⟩ := (matchesWord_family_kk (by decide)).1 h
    simp [decode, decodeFamilyE, hF, hKK, Instr.withFields]
  | ldFromDT | ldKey | ldDT | ldST | addI | ldF | ldB | stRegs | ldRegs =>
    obtain ⟨hF, hKK⟩ := (matchesWord_family_kk (by decide)).1 h
    simp [decode, decodeFamilyF, hF, hKK, Instr.withFields]

/-- The word is illegal by its family's secondary key, as the spec lists the cases (30_encoding.md R83). -/
def IllegalKey (w : Word) : Prop :=
  w.toNat / 4096 = 0 ∧ w ≠ 0x00E0#16 ∧ w ≠ 0x00EE#16 ∨
  w.toNat / 4096 = 8 ∧ w.toNat % 16 ∈ [8, 9, 0xA, 0xB, 0xC, 0xD, 0xF] ∨
  w.toNat / 4096 = 0xE ∧ w.toNat % 256 ∉ [0x9E, 0xA1] ∨
  w.toNat / 4096 = 0xF ∧ w.toNat % 256 ∉ [0x07, 0x0A, 0x15, 0x18, 0x1E, 0x29, 0x33, 0x55, 0x65]

/-- An answer on the word `w` that follows the opcode map: an instruction whose row matches `w`, or the failure that carries `w`,
on an illegal word. -/
def FollowsMap (w : Word) (answer : Except DecodeError Instr) : Prop :=
  (∃ i, answer = .ok i ∧ i.row.matchesWord w = true) ∨ answer = .error (.decodeFailure w) ∧ IllegalKey w

section
variable {w : Word}

theorem decodeFamily0_followsMap (hF : (fieldF w).toNat = 0x0) : FollowsMap w (decodeFamily0 w) := by
  have hword {v : Word} (hv : (fieldNNN w).toNat = v.toNat) : w = v := by
    rw [toNat_fieldF] at hF
    rw [toNat_fieldNNN] at hv
    apply BitVec.eq_of_toNat_eq; omega
  unfold decodeFamily0
  split
  next hkey => exact .inl ⟨_, rfl, matchesWord_whole.2 (hword hkey)⟩
  next hkey => exact .inl ⟨_, rfl, matchesWord_whole.2 (hword hkey)⟩
  next hcls hret =>
    exact .inr ⟨rfl, .inl ⟨(toNat_fieldF w).symm.trans hF, fun h => hcls (h ▸ rfl), fun h => hret (h ▸ rfl)⟩⟩

theorem decodeFamily8_followsMap (hF : (fieldF w).toNat = 0x8) : FollowsMap w (decodeFamily8 w) := by
  unfold decodeFamily8
  split
  case h_10 =>   -- no key of the family
    refine .inr ⟨rfl, .inr (.inl ⟨(toNat_fieldF w).symm.trans hF, ?_⟩)⟩
    have hlt := (fieldN w).isLt
    rw [← toNat_fieldN]
    simp only [imp_false] at *
    simp only [List.mem_cons, List.not_mem_nil]
    omega
  all_goals exact .inl ⟨_, rfl, (matchesWord_family_n (by decide)).2 ⟨hF, ‹_›⟩⟩

theorem decodeFamilyE_followsMap (hF : (fieldF w).toNat = 0xE) : FollowsMap w (decodeFamilyE w) := by
  unfold decodeFamilyE
  split
  case h_3 =>   -- no key of the family
    refine .inr ⟨rfl, .inr (.inr (.inl ⟨(toNat_fieldF w).symm.trans hF, ?_⟩))⟩
    rw [← toNat_fieldKK]
    simp_all
  all_goals exact .inl ⟨_, rfl, (matchesWord_family_kk (by decide)).2 ⟨hF, ‹_›⟩⟩

theorem decodeFamilyF_followsMap (hF : (fieldF w).toNat = 0xF) : FollowsMap w (decodeFamilyF w) := by
  unfold decodeFamilyF
  split
  case h_10 =>   -- no key of the family
    refine .inr ⟨rfl, .inr (.inr (.inr ⟨(toNat_fieldF w).symm.trans hF, ?_⟩))⟩
    rw [← toNat_fieldKK]
    simp_all
  all_goals exact .inl ⟨_, rfl, (matchesWord_family_kk (by decide)).2 ⟨hF, ‹_›⟩⟩

end

theorem decode_followsMap (w : Word) : FollowsMap w (decode w) := by
  unfold decode
  split
  case h_1 => exact decodeFamily0_followsMap ‹_›
  case h_9 => exact decodeFamily8_followsMap ‹_›
  case h_15 => exact decodeFamilyE_followsMap ‹_›
  case h_16 => exact decodeFamilyF_followsMap ‹_›
  case h_17 =>   -- a 4-bit family is at most 0xF
    have hlt := (fieldF w).isLt
    simp only [imp_false] at *
    omega
  -- a family without a secondary key
  all_goals exact .inl ⟨_, rfl, (matchesWord_family (by decide)).2 ‹_›⟩

theorem matchesWord_of_decode {w : Word} {i : Instr} (h : decode w = .ok i) : i.row.matchesWord w = true := by
  rcases decode_followsMap w with ⟨j, hj, hrow⟩ | ⟨herr, -⟩
  · cases h.symm.trans hj
    exact hrow
  · cases h.symm.trans herr

/-- A decoded instruction has the word's fields as its operands. -/
theorem withFields_of_decode {w : Word} {i : Instr} (h : decode w = .ok i) : i.withFields w = i :=
  Except.ok.inj ((decode_of_matchesWord (matchesWord_of_decode h)).symm.trans h)

/-- Settles O1: the row of `i` matches the word of `i`, whose fields are the operands of `i`. -/
theorem decodeOfEncode : Obligations.DecodeOfEncode := by
  intro i
  have hdec := decode_of_matchesWord (row_matchesWord_encode i)
  rwa [Instr.withFields_encode] at hdec

/- ## The encoder on the fields of a word (O2) -/

theorem wordNNN_fields {w : Word} {f : Nibble} (hF : (fieldF w).toNat = f.toNat) : wordNNN f (fieldNNN w) = w := by
  apply BitVec.eq_of_toNat_eq
  rw [toNat_fieldF] at hF
  rw [toNat_wordNNN, toNat_fieldNNN]; omega

theorem wordXKK_fields {w : Word} {f : Nibble} {kk : Byte} (hF : (fieldF w).toNat = f.toNat)
    (hKK : (fieldKK w).toNat = kk.toNat) : wordXKK f (fieldX w) kk = w := by
  apply BitVec.eq_of_toNat_eq
  rw [toNat_fieldF] at hF
  rw [toNat_fieldKK] at hKK
  rw [toNat_wordXKK, toNat_fieldX]; omega

theorem wordXYN_fields {w : Word} {f n : Nibble} (hF : (fieldF w).toNat = f.toNat) (hN : (fieldN w).toNat = n.toNat) :
    wordXYN f (fieldX w) (fieldY w) n = w := by
  apply BitVec.eq_of_toNat_eq
  rw [toNat_fieldF] at hF
  rw [toNat_fieldN] at hN
  rw [toNat_wordXYN, toNat_fieldX, toNat_fieldY]; omega

/-- The encoder writes 0 in place of the nibble that families 5 and 9 ignore. -/
theorem wordXYN_zero_fields {w : Word} {f : Nibble} (hF : (fieldF w).toNat = f.toNat) :
    wordXYN f (fieldX w) (fieldY w) 0 = w - BitVec.ofNat 16 (w.toNat % 16) := by
  apply BitVec.eq_of_toNat_eq
  rw [toNat_fieldF] at hF
  rw [toNat_wordXYN, toNat_fieldX, toNat_fieldY, BitVec.toNat_sub, BitVec.toNat_ofNat]
  show _ + 0 = _
  omega

/-- The encoder puts the fields of a word back where the row's mask has them, but for `n` in families 5 and 9. -/
theorem encode_withFields {i : Instr} {w : Word} (h : i.row.matchesWord w = true) :
    encode (i.withFields w) =
      if w.toNat / 4096 = 5 ∨ w.toNat / 4096 = 9 then w - BitVec.ofNat 16 (w.toNat % 16) else w := by
  rw [← toNat_fieldF]
  cases i with
  | cls | ret => cases matchesWord_whole.1 h; rfl
  | seReg | sneReg =>
    have hF := (matchesWord_family (by decide)).1 h
    rw [if_pos (by rw [hF]; decide)]
    exact wordXYN_zero_fields hF
  | jp | call | ldI | jpV0 =>
    have hF := (matchesWord_family (by decide)).1 h
    rw [if_neg (by rw [hF]; decide)]
    exact wordNNN_fields hF
  | seImm | sneImm | ldImm | addImm | rnd =>
    have hF := (matchesWord_family (by decide)).1 h
    rw [if_neg (by rw [hF]; decide)]
    exact wordXKK_fields hF rfl
  | drw =>
    have hF := (matchesWord_family (by decide)).1 h
    rw [if_neg (by rw [hF]; decide)]
    exact wordXYN_fields hF rfl
  | ldReg | orReg | andReg | xorReg | addReg | subReg | shrReg | subnReg | shlReg =>
    obtain ⟨hF, hN⟩ := (matchesWord_family_n (by decide)).1 h
    rw [if_neg (by rw [hF]; decide)]
    exact wordXYN_fields hF hN
  | skp | sknp | ldFromDT | ldKey | ldDT | ldST | addI | ldF | ldB | stRegs | ldRegs =>
    obtain ⟨hF, hKK⟩ := (matchesWord_family_kk (by decide)).1 h
    rw [if_neg (by rw [hF]; decide)]
    exact wordXKK_fields hF hKK

/-- Settles O2: the operands of a decoded instruction are the word's fields, which the encoder puts back. -/
theorem encodeOfDecode : Obligations.EncodeOfDecode := by
  intro w i h
  rw [← encode_withFields (matchesWord_of_decode h), withFields_of_decode h]

/- ## The opcode map (O3, O4) -/

/-- Every instruction's row is in the map: it is the row of the sample, whose operands are the fields of the word 0. -/
theorem row_mem_opcodeMap (i : Instr) : i.row ∈ opcodeMap := by
  rw [← Instr.row_withFields 0 i]
  refine List.mem_map_of_mem ?_
  cases i <;> exact of_decide_eq_true rfl

theorem legalWord_iff {w : Word} : legalWord w = true ↔ ∃ i, decode w = .ok i := by
  rw [legalWord, List.any_eq_true]
  constructor
  · rintro ⟨r, hr, hw⟩
    obtain ⟨i, -, rfl⟩ := List.mem_map.1 hr
    exact ⟨_, decode_of_matchesWord hw⟩
  · rintro ⟨i, hi⟩
    exact ⟨i.row, row_mem_opcodeMap i, matchesWord_of_decode hi⟩

/-- Two rows that match one word are the same row: both are the row of the instruction the word decodes to. -/
theorem row_eq_of_matchesWord {i j : Instr} {w : Word} (hi : i.row.matchesWord w = true) (hj : j.row.matchesWord w = true) :
    i.row = j.row := by
  have heq : i.withFields w = j.withFields w :=
    Except.ok.inj ((decode_of_matchesWord hi).symm.trans (decode_of_matchesWord hj))
  rw [← Instr.row_withFields w i, heq, Instr.row_withFields]

/-- Settles O3: the row of a decoded word matches it, a word is legal exactly when it decodes, and the rows that match it are one. -/
theorem decoderFollowsOpcodeMap : Obligations.DecoderFollowsOpcodeMap :=
  fun _ => ⟨fun _ => matchesWord_of_decode, legalWord_iff.symm, fun _ _ => row_eq_of_matchesWord⟩

theorem decode_of_not_legalWord {w : Word} (h : legalWord w = false) :
    decode w = .error (.decodeFailure w) ∧ IllegalKey w := by
  rcases decode_followsMap w with ⟨i, hi, -⟩ | herr
  · cases h.symm.trans (legalWord_iff.2 ⟨i, hi⟩)
  · exact herr

/-- Settles O4: a word is legal exactly when it decodes, and the decoder fails on the illegal words alone. -/
theorem illegalWordsFailToDecode : Obligations.IllegalWordsFailToDecode := by
  refine ⟨fun w => ?_, fun s inputs w hrun hfetch hw => ?_⟩
  · cases hw : legalWord w with
    | true => exact .inl ⟨legalWord_iff.1 hw, rfl⟩
    | false =>
      obtain ⟨herr, hkey⟩ := decode_of_not_legalWord hw
      exact .inr ⟨herr, rfl, hkey⟩
  · obtain ⟨herr, -⟩ := decode_of_not_legalWord hw
    rcases s.cycle_cases inputs hrun with ⟨k, hf, -⟩ | ⟨op, e, hf, -, hc⟩ | ⟨op, i, u, hf, hd, -⟩ <;>
      cases hfetch.symm.trans hf
    · exact ⟨_, hc, rfl⟩
    · cases herr.symm.trans hd

end Sys2Proof
end

section
/-! O5 to O9 (30_encoding.md R75 to R80, R86): each family on its words. The decoder and the statement test the same secondary key,
the decoder as a number. -/
namespace Sys2Proof

/-- Settles O5: the key of family 0 is `nnn`. -/
theorem familyZeroIsClsAndRet : Obligations.FamilyZeroIsClsAndRet := by
  intro nnn
  refine (by simp [decode] : decode (wordNNN 0x0 nnn) = decodeFamily0 (wordNNN 0x0 nnn)).trans ?_
  rw [decodeFamily0, fieldNNN_wordNNN, wordNNN]
  split <;> simp_all [← BitVec.toNat_inj]

/-- Settles O6: the key of family 8 is `n`. -/
theorem familyEightKeys : Obligations.FamilyEightKeys := by
  intro x y n
  refine (by simp [decode] : decode (wordXYN 0x8 x y n) = decodeFamily8 (wordXYN 0x8 x y n)).trans ?_
  rw [decodeFamily8, fieldN_wordXYN, fieldX_wordXYN, fieldY_wordXYN, wordXYN]
  split <;> simp_all [← BitVec.toNat_inj]

/-- Settles O7: the key of families E and F is `kk`. -/
theorem familiesEAndFKeys : Obligations.FamiliesEAndFKeys := by
  intro x kk
  constructor
  · refine (by simp [decode] : decode (wordXKK 0xE x kk) = decodeFamilyE (wordXKK 0xE x kk)).trans ?_
    rw [decodeFamilyE, fieldKK_wordXKK, fieldX_wordXKK, wordXKK]
    split <;> simp_all [← BitVec.toNat_inj]
  · refine (by simp [decode] : decode (wordXKK 0xF x kk) = decodeFamilyF (wordXKK 0xF x kk)).trans ?_
    rw [decodeFamilyF, fieldKK_wordXKK, fieldX_wordXKK, wordXKK]
    split <;> simp_all [← BitVec.toNat_inj]

/-- Settles O8: families 5 and 9 have no secondary key. -/
theorem ignoredNibbleOfRegisterSkips : Obligations.IgnoredNibbleOfRegisterSkips := by
  intro x y n
  have h5 : decode (wordXYN 0x5 x y n) = .ok (.seReg x y) := by simp [decode]
  have h9 : decode (wordXYN 0x9 x y n) = .ok (.sneReg x y) := by simp [decode]
  exact ⟨h5, h9⟩

/-- Settles O9: the decoder, run on the 17 words. -/
theorem sampleWordsDecode : Obligations.SampleWordsDecode := by
  unfold Obligations.SampleWordsDecode
  decide

end Sys2Proof
end

section
/-! O10, O11, O14, O46 and O60 (30_encoding.md R88 to R93): the cycle that runs an instruction, the fetch, the tick, and the
transactions that have no next state. -/
namespace Sys2Proof.Machine

/-- The cycle of a running core whose word decodes: the instruction on the fetched state, then the end of the cycle. -/
theorem State.cycle_of_decode {s : State} {inputs : CycleInputs} {op : Word} {i : Instr} (hrun : s.run = .running)
    (hfetch : s.fetch = .ok op) (hdec : decode op = .ok i) :
    s.cycle inputs = mapNext State.endCycle (exec i (({ s with events := [], inputs := inputs } : State).fetched op)) := by
  rcases s.cycle_cases inputs hrun with ⟨k, hf, -⟩ | ⟨op', e, hf, hd, -⟩ | ⟨op', i', t, hf, hd, hexec, hc⟩ <;>
    cases hfetch.symm.trans hf
  · cases hdec.symm.trans hd
  · cases hdec.symm.trans hd
    rw [hc, hexec]; rfl

/- ## The step: the first transaction of the inbox, or a cycle with free inputs (60_exceptions.md R240, R249) -/

theorem step_of_inbox_nil {s : State} (h : s.inbox = []) :
    step s = ({ s with freeCycles := s.freeCycles + 1 } : State).cycle (freeInputs s.freeCycles) := by
  unfold step State.transact
  split
  · rfl
  next hcons => cases h.symm.trans hcons

theorem step_of_inbox_cons {s : State} {op : HostOp} {rest : List HostOp} (h : s.inbox = op :: rest) :
    step s = ({ s with inbox := rest } : State).perform op := by
  unfold step State.transact
  split
  next hnil => cases h.symm.trans hnil
  next hcons => cases h.symm.trans hcons; rfl

/-- Settles O10: either way the step is a cycle, from `s` with the inbox or the counter of free inputs moved on. -/
theorem stepRunsDecodedInstruction : Obligations.StepRunsDecodedInstruction := by
  intro s s' inputs i hnext hrun heven hle hdec
  have hfetch := State.fetch_eq_ok heven hle
  rcases hnext with ⟨rest, hinbox, rfl⟩ | ⟨hinbox, rfl, rfl⟩
  · rw [step_of_inbox_cons hinbox]
    exact State.cycle_of_decode (s := { s with inbox := rest }) hrun hfetch hdec
  · rw [step_of_inbox_nil hinbox]
    exact State.cycle_of_decode (s := { s with freeCycles := s.freeCycles + 1 }) hrun hfetch hdec

/-- Settles O11: the two faults as `fetch_cases` has them, and the big-endian word. -/
theorem fetchChecksAndReadsBigEndian : Obligations.FetchChecksAndReadsBigEndian := by
  intro s
  refine ⟨fun hodd => ?_, fun heven hout => ?_, fun heven hin => ?_⟩
  · rcases s.fetch_cases with ⟨-, hfetch⟩ | ⟨heven, -⟩ | ⟨heven, -⟩
    · exact hfetch
    · omega
    · omega
  · rcases s.fetch_cases with ⟨hodd, -⟩ | ⟨-, -, hfetch⟩ | ⟨-, hle, -⟩
    · omega
    · exact hfetch
    · omega
  · exact ⟨_, State.fetch_eq_ok heven (by omega), toNat_wordOfBytes _ _⟩

/- ## The tick -/

theorem toNat_countDown (t : Byte) : (countDown t).toNat = t.toNat - 1 := by
  unfold countDown
  split
  next h => rw [h]; rfl
  next h => bv_omega

theorem bne_zero_iff_toNat_pos (t : Byte) : (t != 0) = true ↔ 0 < t.toNat := by
  rw [bne_iff_ne, Nat.pos_iff_ne_zero, ne_eq, ne_eq, ← BitVec.toNat_inj]; rfl

theorem State.tick_alert_before {s : State} (h : s.cfg.alertSample = .before) : s.tick.alert = true ↔ 0 < s.st.toNat := by
  rw [State.tick_alert, h]
  exact bne_zero_iff_toNat_pos s.st

theorem State.tick_alert_after {s : State} (h : s.cfg.alertSample = .after) : s.tick.alert = true ↔ 1 < s.st.toNat := by
  rw [State.tick_alert, h]
  refine (bne_zero_iff_toNat_pos _).trans ?_
  rw [toNat_countDown]; omega

theorem keepsAllBut_tick (s : State) : KeepsAllBut [.dt, .st, .alert] s s.tick := by
  intro p hp
  cases p with
  | dt | st | alert => exact absurd hp (by simp)
  | mem | regs => exact fun _ => rfl
  | fb => exact fun _ _ => rfl
  | _ => rfl

/-- A cycle whose instruction completes ticks once. -/
theorem State.cycle_of_completed {s u : State} {inputs : CycleInputs} {op : Word} {i : Instr} (hrun : s.run = .running)
    (hfetch : s.fetch = .ok op) (hdec : decode op = .ok i)
    (hexec : exec i (({ s with events := [], inputs := inputs } : State).fetched op) = .next u) (hu : u.run = .running) :
    s.cycle inputs = .next u.tick := by
  rw [State.cycle_of_decode hrun hfetch hdec, hexec, mapNext, State.endCycle_eq, if_pos hu]

/-- A cycle whose instruction suspends or faults does not tick. -/
theorem State.cycle_of_not_completed {s u : State} {inputs : CycleInputs} {op : Word} {i : Instr} (hrun : s.run = .running)
    (hfetch : s.fetch = .ok op) (hdec : decode op = .ok i)
    (hexec : exec i (({ s with events := [], inputs := inputs } : State).fetched op) = .next u) (hu : u.run ≠ .running) :
    s.cycle inputs = .next u := by
  rw [State.cycle_of_decode hrun hfetch hdec, hexec, mapNext, State.endCycle_eq, if_neg hu]

/-- A resumption that is not refused writes the key code and ticks (60_exceptions.md R245). -/
theorem State.resume_of_awaitingKey {s : State} {x : Nibble} {k : Nat} (hrun : s.run = .awaitingKey x) (hk : k ≤ 15) :
    s.resume k = .next (({ s with events := [], run := .running } : State).setReg x (BitVec.ofNat 8 k)).tick := by
  unfold State.resume
  split
  next y hy => cases hrun.symm.trans hy; exact if_pos hk
  next hr => cases hrun.symm.trans hr
  next f hf => cases hrun.symm.trans hf

/-- Settles O14: the tick's arithmetic, then where a cycle and a resumption tick. -/
theorem tickOncePerCompletedCycle : Obligations.TickOncePerCompletedCycle := by
  refine ⟨fun s => ?_, fun s u inputs op i hrun hfetch hdec hexec => ⟨?_, ?_⟩, fun s x k hrun hk => ?_⟩
  · exact ⟨toNat_countDown s.dt, toNat_countDown s.st, State.tick_alert_before, State.tick_alert_after, keepsAllBut_tick s⟩
  · exact State.cycle_of_completed hrun hfetch hdec hexec
  · exact State.cycle_of_not_completed hrun hfetch hdec hexec
  · exact ⟨_, State.resume_of_awaitingKey hrun hk, rfl, rfl, rfl⟩

/-- Settles O46: each transfer completes, so its cycle leaves the tick of the state that the transfer leaves. -/
theorem tickFollowsTimerTransfer : Obligations.TickFollowsTimerTransfer := by
  refine fun s inputs op x hrun hfetch => ⟨fun hdec => ?_, fun hdec => ?_, fun hdec => ?_⟩
  · exact ⟨_, State.cycle_of_completed hrun hfetch hdec rfl hrun, toNat_countDown (s.reg x)⟩
  · exact ⟨_, State.cycle_of_completed hrun hfetch hdec rfl hrun, toNat_countDown (s.reg x),
      fun h => State.tick_alert_before h, fun h => State.tick_alert_after h⟩
  · exact ⟨_, State.cycle_of_completed hrun hfetch hdec rfl hrun, State.reg_setReg_self _ x s.dt, toNat_countDown s.dt⟩

/- ## Next states -/

theorem State.exists_cycle_eq_next (s : State) (inputs : CycleInputs) : ∃ t, s.cycle inputs = .next t := by
  by_cases hrun : s.run = .running
  · rcases s.cycle_cases inputs hrun with ⟨_, -, hc⟩ | ⟨_, _, -, -, hc⟩ | ⟨_, _, _, -, -, -, hc⟩ <;> exact ⟨_, hc⟩
  · exact ⟨_, s.cycle_not_running inputs hrun⟩

/-- Settles O60: a cycle and a reset always have a next state, which leaves the other two transactions. -/
theorem onlyHostTransactionsAreRefused : Obligations.OnlyHostTransactionsAreRefused := by
  refine fun s => ⟨s.exists_cycle_eq_next, ?_⟩
  cases hinbox : s.inbox with
  | nil =>
    rw [step_of_inbox_nil hinbox]
    exact .inl (State.exists_cycle_eq_next _ _)
  | cons op rest =>
    rw [step_of_inbox_cons hinbox]
    cases op with
    | cycle inputs => exact .inl (State.exists_cycle_eq_next _ inputs)
    | reset => exact .inl ⟨_, rfl⟩
    | resume k => exact .inr ⟨rest, .inl ⟨k, rfl⟩⟩
    | load image => exact .inr ⟨rest, .inr ⟨image, rfl⟩⟩

end Sys2Proof.Machine
end

section
/-! O26 to O28, O30 to O32 (40_control_flow.md R100 to R110): jumps, the call stack and the skips. Each is a move of `pc`, for CALL
and RET with the stack, whose target the next fetch may fault on. -/
namespace Sys2Proof.Machine

section
variable {s : State}

/- ## Targets of jumps -/

@[simp] theorem toNat_addressOf (nnn : Imm12) : (addressOf nnn).toNat = nnn.toNat :=
  BitVec.toNat_setWidth_of_le (by decide)

@[simp] theorem State.toNat_indexedTarget (s : State) (nnn : Imm12) :
    (s.indexedTarget nnn).toNat = nnn.toNat + (s.reg 0).toNat := by
  have hn := nnn.isLt
  have hv := (s.reg 0).isLt
  rw [State.indexedTarget, BitVec.toNat_ofNat]; omega

/-- A fetch at an odd address faults as misaligned, in range or not (30_encoding.md R91). -/
theorem State.fetch_of_odd (hodd : s.pc.toNat % 2 = 1) : s.fetch = .error (.pcMisaligned s.pc) :=
  have ⟨hmisaligned, _⟩ := fetchChecksAndReadsBigEndian s
  hmisaligned hodd

theorem State.fetch_of_out_of_range (heven : s.pc.toNat % 2 = 0) (hout : 0x1000 ≤ s.pc.toNat) :
    s.fetch = .error (.addressOutOfRange s.pc.toNat) :=
  have ⟨_, houtOfRange, _⟩ := fetchChecksAndReadsBigEndian s
  houtOfRange heven hout

/- ## The call stack -/

theorem keepsAllBut_pc_stack (s : State) (a : Word) (stack : List Word) :
    KeepsAllBut [.pc, .stack] s { s with pc := a, stack := stack } := by
  intro p hp
  cases p with
  | pc | stack => exact absurd hp (by simp)
  | mem | regs => exact fun _ => rfl
  | fb => exact fun _ _ => rfl
  | _ => rfl

theorem State.stackFull_eq_false (h : ∀ limit, s.cfg.stackLimit = some limit → s.stack.length < limit) :
    s.stackFull = false := by
  unfold State.stackFull
  split
  · rfl
  next limit hlimit => exact decide_eq_false (Nat.not_le.2 (h limit hlimit))

theorem State.stackFull_eq_true {limit : Nat} (hlimit : s.cfg.stackLimit = some limit) (h : limit ≤ s.stack.length) :
    s.stackFull = true := by
  rw [State.stackFull, hlimit]
  exact decide_eq_true h

theorem exec_call_of_room (nnn : Imm12) (hroom : s.stackFull = false) :
    exec (.call nnn) s = .next { s with pc := addressOf nnn, stack := s.pc :: s.stack } := by
  rw [exec, execCall, hroom]; rfl

theorem exec_call_of_stackFull (nnn : Imm12) (hfull : s.stackFull = true) :
    exec (.call nnn) s = .next (s.takeFault (.stackOverflow s.stack.length)) := by
  rw [exec, execCall, hfull]; rfl

theorem exec_ret_of_stack_eq_cons {top : Word} {rest : List Word} (hstack : s.stack = top :: rest) :
    exec .ret s = .next { s with pc := top, stack := rest } := by
  rw [exec, execRet, hstack]

/- ## Skips -/

theorem keepsAllBut_skipIf (s : State) (c : Bool) : KeepsAllBut [.pc] s (s.skipIf c) := keepsAllBut_pc s _

section
variable {c : Bool} {p : Prop} [Decidable p]

theorem State.skipIf_pc_of_iff (s : State) (h : c = true ↔ p) : (s.skipIf c).pc = if p then s.pc + 2 else s.pc :=
  if_congr h rfl rfl

theorem State.skipIf_not_pc_of_iff (s : State) (h : c = true ↔ p) : (s.skipIf !c).pc = if p then s.pc else s.pc + 2 := by
  rw [← if_congr h rfl rfl]
  cases c <;> rfl

end

/-- The query of a key code asks the host for that key (60_exceptions.md R242). -/
theorem State.keyHeld_of_le {x : Nibble} (h : (s.reg x).toNat ≤ 15) :
    s.keyHeld x = s.inputs.pressed[(s.reg x).toNat] := by
  rw [State.keyHeld, Vector.getElem?_eq_getElem (by omega)]; rfl

/-- A value above 15 is no key code and counts as not held (40_control_flow.md R109). -/
theorem State.keyHeld_of_gt {x : Nibble} (h : 15 < (s.reg x).toNat) : s.keyHeld x = false := by
  rw [State.keyHeld, Vector.getElem?_eq_none (by omega)]; rfl

end

/- ## The statements -/

/-- Settles O26: the target is a 12-bit address, so the next fetch can fail on its alignment alone. -/
theorem jumpSetsPc : Obligations.JumpSetsPc := by
  intro nnn s
  have htarget := toNat_addressOf nnn
  refine ⟨decodeOfEncode (.jp nnn), _, rfl, htarget, keepsAllBut_pc s _, fun hodd => ?_, fun heven => ?_⟩
  · exact State.fetch_of_odd (by rwa [htarget])
  · have hn := nnn.isLt
    exact ⟨_, State.fetch_eq_ok (by rwa [htarget]) (by rw [htarget]; omega)⟩

/-- Settles O27: the sum is below 2 ^ 16, and the next fetch judges it as it judges any `pc`. -/
theorem indexedJumpSetsPc : Obligations.IndexedJumpSetsPc :=
  fun nnn s => ⟨decodeOfEncode (.jpV0 nnn), _, rfl, s.toNat_indexedTarget nnn, keepsAllBut_pc s _,
    State.fetch_of_odd, State.fetch_of_out_of_range⟩

/-- Settles O28: whether the stack is full decides between the push and the fault. -/
theorem callPushesReturnAddress : Obligations.CallPushesReturnAddress := by
  refine fun nnn s => ⟨decodeOfEncode (.call nnn), fun hroom => ?_, fun limit hlimit hfull => ?_⟩
  · have htarget := toNat_addressOf nnn
    refine ⟨_, exec_call_of_room nnn (State.stackFull_eq_false hroom), rfl, htarget, keepsAllBut_pc_stack s _ _, fun hodd => ?_⟩
    exact State.fetch_of_odd (by rwa [htarget])
  · exact ⟨_, exec_call_of_stackFull nnn (State.stackFull_eq_true hlimit hfull), haltsWith_takeFault s _⟩

/-- Settles O30: the CALL leaves its return address on top of the old stack, and the RET takes them apart again. -/
theorem returnUndoesCall : Obligations.ReturnUndoesCall := by
  intro nnn s t u hroom hcall hstack
  cases hcall.symm.trans (exec_call_of_room nnn hroom)
  exact ⟨_, exec_ret_of_stack_eq_cons hstack, rfl, rfl, keepsAllBut_pc_stack u _ _⟩

/-- Settles O31: the skip rule on equality and on its negation; O8 has the ignored nibble. -/
theorem comparingSkips : Obligations.ComparingSkips := by
  intro x y n kk s
  obtain ⟨hseReg, hsneReg⟩ := ignoredNibbleOfRegisterSkips x y n
  refine ⟨decodeOfEncode (.seImm x kk), decodeOfEncode (.sneImm x kk), hseReg, hsneReg, ?_, ?_, ?_, ?_⟩
  · exact ⟨_, rfl, keepsAllBut_skipIf s _, s.skipIf_pc_of_iff beq_iff_eq⟩
  · exact ⟨_, rfl, keepsAllBut_skipIf s _, s.skipIf_not_pc_of_iff beq_iff_eq⟩
  · exact ⟨_, rfl, keepsAllBut_skipIf s _, s.skipIf_pc_of_iff beq_iff_eq⟩
  · exact ⟨_, rfl, keepsAllBut_skipIf s _, s.skipIf_not_pc_of_iff beq_iff_eq⟩

/-- Settles O32: the skip rule on the key query and on its negation, the query split at the key code 15. -/
theorem keySkips : Obligations.KeySkips := by
  refine fun x s => ⟨⟨_, rfl, keepsAllBut_skipIf s _, fun hle => ?_, fun hgt => ?_⟩,
    ⟨_, rfl, keepsAllBut_skipIf s _, fun hle => ?_, fun hgt => ?_⟩⟩
  · exact s.skipIf_pc_of_iff (by rw [State.keyHeld_of_le hle])
  · rw [State.keyHeld_of_gt hgt]; rfl
  · exact s.skipIf_not_pc_of_iff (by rw [State.keyHeld_of_le hle])
  · rw [State.keyHeld_of_gt hgt]; rfl

end Sys2Proof.Machine
end

section
/-! O33 to O40 (41_alu.md R131 to R145; 42_memory_timers_keys.md R171): the arithmetic, logic and index instructions. Each is one
register write, the pair of writes of R133, or one write of `I`; the byte functions of R138 to R142 are said in numbers first. -/
namespace Sys2Proof.Machine

/- ## The byte functions in numbers -/

theorem toNat_addResult (a b : Byte) : (addResult a b).toNat = (a.toNat + b.toNat) % 256 := by
  rw [addResult, BitVec.toNat_ofNat, Nat.mod_mod]

theorem toNat_subResult (a b : Byte) : ((subResult a b).toNat : Int) = (a.toNat - b.toNat : Int) % 256 := by
  rw [subResult, BitVec.toNat_ofInt]; omega

theorem toNat_shrResult (b : Byte) : (shrResult b).toNat = b.toNat / 2 := by
  rw [shrResult, BitVec.toNat_ushiftRight, Nat.shiftRight_eq_div_pow, Nat.pow_one]

theorem toNat_shlResult (b : Byte) : (shlResult b).toNat = 2 * b.toNat % 256 := by
  rw [shlResult, BitVec.toNat_shiftLeft, Nat.shiftLeft_eq, Nat.pow_one, Nat.mul_comm]

/-- A flag that a condition decides is written as 1 or 0. -/
theorem toNat_flagByte_decide (p : Prop) [Decidable p] : (flagByte (decide p)).toNat = if p then 1 else 0 := by
  rw [flagByte_toNat]
  exact if_congr decide_eq_true_iff rfl rfl

/-- A flag that is a bit of a byte is written as that binary digit. -/
theorem toNat_flagByte_getLsbD (b : Byte) (k : Nat) : (flagByte (b.getLsbD k)).toNat = b.toNat / 2 ^ k % 2 := by
  rw [flagByte_toNat, BitVec.getLsbD, ← Nat.toNat_testBit, Bool.toNat, Bool.cond_eq_ite]

theorem toNat_flagByte_addCarry (a b : Byte) :
    (flagByte (addCarry a b)).toNat = if 255 < a.toNat + b.toNat then 1 else 0 :=
  toNat_flagByte_decide _

theorem toNat_flagByte_subNoBorrow (a b : Byte) :
    (flagByte (subNoBorrow a b)).toNat = if b.toNat ≤ a.toNat then 1 else 0 :=
  toNat_flagByte_decide _

theorem toNat_flagByte_shrFlag (b : Byte) : (flagByte (shrFlag b)).toNat = b.toNat % 2 := by
  rw [shrFlag, toNat_flagByte_getLsbD, Nat.pow_zero, Nat.div_one]

theorem toNat_flagByte_shlFlag (b : Byte) : (flagByte (shlFlag b)).toNat = b.toNat / 128 := by
  have hb := b.isLt
  rw [shlFlag, toNat_flagByte_getLsbD]; omega

/- ## The writes -/

theorem keepsAllBut_setReg (s : State) (x : Nibble) (b : Byte) : KeepsAllBut [.regs] s (s.setReg x b) := keepsAllBut_v s _

theorem regsKeptBut_writeResultAndFlag (s : State) (x : Nibble) (res : Byte) (flg : Bool) :
    RegsKeptBut [x, 15] s (s.writeResultAndFlag x res flg) := by
  intro r hr
  obtain ⟨hx, hvf⟩ : r ≠ x ∧ r ≠ vfIndex := by simpa [vfIndex] using hr
  rw [State.reg_writeResultAndFlag, if_neg fun h => hvf h.1, if_neg hx]

section
variable {s : State} {x : Nibble}

/-- The result stays in `V[x]` unless that is VF and the flag is written later (41_alu.md R133). -/
theorem State.result_writeResultAndFlag (res : Byte) (flg : Bool)
    (h : x ≠ 15#4 ∨ s.cfg.vfWriteOrder = .resultLast) :
    (s.writeResultAndFlag x res flg).reg x = res := by
  have hflag : ¬ (x = vfIndex ∧ (x ≠ vfIndex ∨ s.cfg.vfWriteOrder = .flagLast)) := by
    rintro ⟨hx, hne | hlast⟩
    · exact hne hx
    · have hres := h.resolve_left (not_not_intro hx)
      cases hres.symm.trans hlast
  rw [State.reg_writeResultAndFlag, if_neg hflag, if_pos rfl]

/-- The flag stays in VF unless that is `V[x]` and the result is written later (41_alu.md R133). -/
theorem State.flag_writeResultAndFlag (res : Byte) (flg : Bool)
    (h : x ≠ 15#4 ∨ s.cfg.vfWriteOrder = .flagLast) :
    (s.writeResultAndFlag x res flg).reg 15 = flagByte flg := by
  rw [State.reg_writeResultAndFlag, if_pos ⟨rfl, h⟩]

/- ## The index -/

theorem exec_addI_of_le (h : s.i.toNat + (s.reg x).toNat ≤ 0xFFFF) :
    exec (.addI x) s = .next { s with i := BitVec.ofNat 16 (s.indexSum x) } :=
  congrArg Host.Outcome.next (if_neg (Nat.not_lt.2 h))

theorem exec_addI_of_gt (h : 0xFFFF < s.i.toNat + (s.reg x).toNat) :
    exec (.addI x) s = .next (s.takeFault (.indexOverflow (s.indexSum x))) :=
  congrArg Host.Outcome.next (if_pos h)

theorem State.toNat_ofNat_indexSum (s : State) {x : Nibble} (h : s.i.toNat + (s.reg x).toNat ≤ 0xFFFF) :
    (BitVec.ofNat 16 (s.indexSum x)).toNat = s.i.toNat + (s.reg x).toNat := by
  rw [State.indexSum, BitVec.toNat_ofNat]; omega

theorem State.toNat_glyphAddress (s : State) (x : Nibble) : (s.glyphAddress x).toNat = 5 * (s.reg x).toNat := by
  have hv := (s.reg x).isLt
  rw [State.glyphAddress, BitVec.toNat_ofNat]; omega

end

/- ## The statements -/

/-- Settles O35: the pair of writes, with the sum as the result and the carry as the flag. -/
theorem addRegistersWithCarry : Obligations.AddRegistersWithCarry := by
  refine fun x y s => ⟨decodeOfEncode (.addReg x y), _, rfl, regsKeptBut_writeResultAndFlag s x _ _,
    keepsAllBut_writeResultAndFlag s x _ _, fun h => ?_, fun h => ?_⟩
  · rw [State.result_writeResultAndFlag _ _ h, toNat_addResult]
  · rw [State.flag_writeResultAndFlag _ _ h, toNat_flagByte_addCarry]

/-- Settles O36: the pair of writes, with the difference as the result and no-borrow as the flag; SUBN swaps the operands. -/
theorem subtractWithNoBorrow : Obligations.SubtractWithNoBorrow := by
  refine fun x y s => ⟨decodeOfEncode (.subReg x y), decodeOfEncode (.subnReg x y),
    ⟨_, rfl, regsKeptBut_writeResultAndFlag s x _ _, keepsAllBut_writeResultAndFlag s x _ _, fun h => ?_, fun h => ?_⟩,
    ⟨_, rfl, regsKeptBut_writeResultAndFlag s x _ _, keepsAllBut_writeResultAndFlag s x _ _, fun h => ?_, fun h => ?_⟩⟩
  · rw [State.result_writeResultAndFlag _ _ h, toNat_subResult]
  · rw [State.flag_writeResultAndFlag _ _ h, toNat_flagByte_subNoBorrow]
  · rw [State.result_writeResultAndFlag _ _ h, toNat_subResult]
  · rw [State.flag_writeResultAndFlag _ _ h, toNat_flagByte_subNoBorrow]

/-- Settles O37: the pair of writes, with V[y] shifted as the result and its lowest or highest bit as the flag. -/
theorem shiftsMoveVyIntoVx : Obligations.ShiftsMoveVyIntoVx := by
  refine fun x y s => ⟨decodeOfEncode (.shrReg x y), decodeOfEncode (.shlReg x y),
    ⟨_, rfl, regsKeptBut_writeResultAndFlag s x _ _, keepsAllBut_writeResultAndFlag s x _ _, fun h => ?_, fun h => ?_⟩,
    ⟨_, rfl, regsKeptBut_writeResultAndFlag s x _ _, keepsAllBut_writeResultAndFlag s x _ _, fun h => ?_, fun h => ?_⟩⟩
  · rw [State.result_writeResultAndFlag _ _ h, toNat_shrResult]
  · rw [State.flag_writeResultAndFlag _ _ h, toNat_flagByte_shrFlag]
  · rw [State.result_writeResultAndFlag _ _ h, toNat_shlResult]
  · rw [State.flag_writeResultAndFlag _ _ h, toNat_flagByte_shlFlag]

/-- Settles O33: three single register writes; the sum is `addResult`. -/
theorem loadsAndImmediateAdd : Obligations.LoadsAndImmediateAdd := by
  refine fun x y kk s => ⟨decodeOfEncode (.ldImm x kk), decodeOfEncode (.ldReg x y), decodeOfEncode (.addImm x kk), ?_, ?_, ?_⟩
  · exact ⟨_, rfl, s.reg_setReg_self x kk, regsKeptBut_setReg s x _, keepsAllBut_setReg s x _⟩
  · exact ⟨_, rfl, s.reg_setReg_self x (s.reg y), regsKeptBut_setReg s x _, keepsAllBut_setReg s x _⟩
  · exact ⟨_, rfl, by rw [State.reg_setReg_self, toNat_addResult], regsKeptBut_setReg s x _, keepsAllBut_setReg s x _⟩

/-- Settles O34: three single register writes, each read bit by bit. -/
theorem logicBitByBit : Obligations.LogicBitByBit := by
  refine fun x y s => ⟨decodeOfEncode (.orReg x y), decodeOfEncode (.andReg x y), decodeOfEncode (.xorReg x y),
    ⟨_, rfl, regsKeptBut_setReg s x _, keepsAllBut_setReg s x _, fun k _ => ?_⟩,
    ⟨_, rfl, regsKeptBut_setReg s x _, keepsAllBut_setReg s x _, fun k _ => ?_⟩,
    ⟨_, rfl, regsKeptBut_setReg s x _, keepsAllBut_setReg s x _, fun k _ => ?_⟩⟩
  · rw [State.reg_setReg_self, BitVec.getLsbD_or]
  · rw [State.reg_setReg_self, BitVec.getLsbD_and]
  · rw [State.reg_setReg_self, BitVec.getLsbD_xor]

/-- Settles O38: one register write; a bit of the mask decides whether the draw's bit is let through. -/
theorem randomByteIsMasked : Obligations.RandomByteIsMasked := by
  refine fun x kk s => ⟨decodeOfEncode (.rnd x kk), _, rfl, regsKeptBut_setReg s x _, keepsAllBut_setReg s x _, fun k _ => ?_⟩
  rw [State.reg_setReg_self, BitVec.getLsbD_and]
  cases kk.getLsbD k with
  | true => exact Bool.and_true _
  | false => exact Bool.and_false _

/-- Settles O39: neither value reaches 2 ^ 16, so neither is reduced. -/
theorem indexLoads : Obligations.IndexLoads :=
  fun nnn x s => ⟨decodeOfEncode (.ldI nnn), decodeOfEncode (.ldF x),
    ⟨_, rfl, toNat_addressOf nnn, keepsAllBut_i s _⟩, ⟨_, rfl, s.toNat_glyphAddress x, keepsAllBut_i s _⟩⟩

/-- Settles O40: the sum is written exactly while it fits in 16 bits, and is the value of the fault above that. -/
theorem addIndexOrOverflow : Obligations.AddIndexOrOverflow := by
  refine fun x s => ⟨decodeOfEncode (.addI x), fun hfits => ?_, fun hover => ?_⟩
  · exact ⟨_, exec_addI_of_le hfits, s.toNat_ofNat_indexSum hfits, keepsAllBut_i s _⟩
  · exact ⟨_, exec_addI_of_gt hover, haltsWith_takeFault s _⟩

end Sys2Proof.Machine
end

section
/-! O41 to O45 and O47 (42_memory_timers_keys.md R172 to R178): BCD, the block transfers, the timer transfers and the key wait. The
three memory instructions are an access check and one effect, so where the check passes and which fault it finds is said first, in
terms of the access's first and last address. -/
namespace Sys2Proof.Machine

/- ## The access check of `a .. a+k` -/

section
variable {kind : AccessKind} {a k : Nat}

theorem checkAccess_of_within (hlow : kind = .write → 0x200 ≤ a) (hhigh : a + k ≤ 0xFFF) :
    checkAccess kind a (k + 1) = none :=
  checkAccess_eq_none.2 fun _ hab hbk => ⟨by omega, fun hwrite => (hlow hwrite).trans hab⟩

theorem checkAccess_of_reserved (hlow : a < 0x200) : checkAccess .write a (k + 1) = some (.reservedWrite a) :=
  have ⟨_, hfirst⟩ := accessCheckFindsFirstFailure .write a (k + 1)
  have ⟨_, hreserved⟩ := hfirst a le_rfl (by omega) fun _ hac hca => absurd hac (Nat.not_le.2 hca)
  hreserved (by omega) rfl hlow

/-- The first address above 0xFFF that an access reaches is 0x1000, unless the access starts above it. -/
theorem checkAccess_of_past_end (hlow : kind = .write → 0x200 ≤ a) (hhigh : 0xFFF < a + k) :
    checkAccess kind a (k + 1) = some (.addressOutOfRange (max a 0x1000)) :=
  have ⟨_, hfirst⟩ := accessCheckFindsFirstFailure kind a (k + 1)
  have ⟨houtOfRange, _⟩ := hfirst (max a 0x1000) (by omega) (by omega) fun _ hac hcb =>
    ⟨by omega, fun hwrite => (hlow hwrite).trans hac⟩
  houtOfRange (by omega)

variable {s : State} {f : State → State}

theorem State.afterCheck_of_pass (h : checkAccess kind a k = none) : s.afterCheck kind a k f = f s := by
  rw [State.afterCheck, h]

theorem haltsWith_afterCheck {fault : FaultKind} (h : checkAccess kind a k = some fault) :
    HaltsWith fault s (s.afterCheck kind a k f) := by
  rw [State.afterCheck, h]
  exact haltsWith_takeFault s fault

end

section
variable {s : State} {x : Nibble}

/- ## The effects of the memory instructions -/

theorem exec_ldB_of_within (hlow : 0x200 ≤ s.i.toNat) (hhigh : s.i.toNat + 2 ≤ 0xFFF) :
    exec (.ldB x) s = .next (s.storeBytes s.i.toNat (decimalDigits (s.reg x))) :=
  congrArg Host.Outcome.next (State.afterCheck_of_pass (checkAccess_of_within (fun _ => hlow) hhigh))

theorem exec_stRegs_of_within (hlow : 0x200 ≤ s.i.toNat) (hhigh : s.i.toNat + x.toNat ≤ 0xFFF) :
    exec (.stRegs x) s = .next (s.storeBytes s.i.toNat (s.regsUpTo x)) :=
  congrArg Host.Outcome.next (State.afterCheck_of_pass (checkAccess_of_within (fun _ => hlow) hhigh))

theorem exec_ldRegs_of_within (hhigh : s.i.toNat + x.toNat ≤ 0xFFF) :
    exec (.ldRegs x) s = .next { s with v := fillRegs (s.loadBytes s.i.toNat (x.toNat + 1)) 0 s.v } :=
  congrArg Host.Outcome.next (State.afterCheck_of_pass (checkAccess_of_within nofun hhigh))

/-- Each byte of a block is read back at its own address after the store. -/
theorem State.readByte_storeBytes_add (s : State) (a : Nat) {bs : List Byte} {j : Nat} (h : j < bs.length) :
    (s.storeBytes a bs).readByte (a + j) = bs[j] := by
  have hj : a + j - a = j := Nat.add_sub_cancel_left a j
  rw [State.readByte_storeBytes, dif_pos ⟨Nat.le_add_right a j, hj.symm ▸ h⟩]
  simp only [hj]

/-- The hundreds, tens and units of a byte as numbers: a digit is below 256, so its byte holds it exactly. -/
theorem map_toNat_decimalDigits (b : Byte) :
    (decimalDigits b).map BitVec.toNat = [b.toNat / 100, b.toNat / 10 % 10, b.toNat % 10] := by
  have hb := b.isLt
  simp only [decimalDigits, List.map_cons, List.map_nil, BitVec.toNat_ofNat, List.cons.injEq, and_true]
  omega

theorem State.toNat_readByte_storeBytes_decimalDigits (s : State) (a : Nat) (b : Byte) {j : Nat} (h : j < 3) :
    ((s.storeBytes a (decimalDigits b)).readByte (a + j)).toNat =
      [b.toNat / 100, b.toNat / 10 % 10, b.toNat % 10][j] := by
  simp only [← map_toNat_decimalDigits, List.getElem_map]
  exact congrArg BitVec.toNat (s.readByte_storeBytes_add a h)

theorem State.getElem_regsUpTo {r : Nibble} (h : r.toNat < (s.regsUpTo x).length) : (s.regsUpTo x)[r.toNat] = s.reg r := by
  simp only [State.regsUpTo, List.getElem_take, Vector.getElem_toList, State.reg]

/-- What a block load up to `V[x]` leaves in each register. -/
theorem State.reg_fillRegs_loadBytes (s : State) (a : Nat) (x r : Nibble) :
    ({ s with v := fillRegs (s.loadBytes a (x.toNat + 1)) 0 s.v } : State).reg r =
      if r ≤ x then s.readByte (a + r.toNat) else s.reg r := by
  have hloaded : 0 ≤ r.toNat ∧ r.toNat - 0 < (s.loadBytes a (x.toNat + 1)).length ↔ r ≤ x := by
    rw [State.length_loadBytes, BitVec.le_def]; omega
  rw [State.reg, getElem_fillRegs]
  split
  next h => rw [if_pos (hloaded.1 h), State.getElem_loadBytes, Nat.sub_zero]
  next h => rw [if_neg (mt hloaded.2 h)]; rfl

end

/- ## Frames -/

/-- A write of the timers and of `run` keeps all but the parts it gives a new value. -/
theorem keepsAllBut_timers_run (s : State) {parts : List Part} {dt st : Byte} {run : RunState} (hdt : .dt ∈ parts ∨ dt = s.dt)
    (hst : .st ∈ parts ∨ st = s.st) (hrun : .run ∈ parts ∨ run = s.run) :
    KeepsAllBut parts s { s with dt := dt, st := st, run := run } := by
  intro p hp
  cases p with
  | dt => exact hdt.resolve_left hp
  | st => exact hst.resolve_left hp
  | run => exact hrun.resolve_left hp
  | mem | regs => exact fun _ => rfl
  | fb => exact fun _ _ => rfl
  | _ => rfl

/-- The state that a cycle runs its instruction on differs from the one it began in by `pc` and the model's own record. -/
theorem keepsAllBut_fetched (s : State) (inputs : CycleInputs) (op : Word) :
    KeepsAllBut (.pc :: ownParts) s (({ s with events := [], inputs := inputs } : State).fetched op) := by
  intro p hp
  cases p with
  | pc | inbox | freeCycles | inputs | cur | events => exact absurd (by decide) hp
  | mem | regs => exact fun _ => rfl
  | fb => exact fun _ _ => rfl
  | _ => rfl

theorem keepsAllBut_awaitingKey (s : State) (x : Nibble) : KeepsAllBut [.run] s { s with run := .awaitingKey x } :=
  keepsAllBut_timers_run s (.inr rfl) (.inr rfl) (.inl (by decide))

/- ## The statements -/

/-- Settles O41: three bytes after a write check; each is read back as its digit. -/
theorem decimalDigitsStored : Obligations.DecimalDigitsStored := by
  refine fun x s => ⟨decodeOfEncode (.ldB x), fun hlow hhigh => ?_, fun hlow => ?_, fun hhigh => ?_⟩
  · have hdigit {j : Nat} (h : j < 3) := s.toNat_readByte_storeBytes_decimalDigits s.i.toNat (s.reg x) h
    exact ⟨_, exec_ldB_of_within hlow hhigh, hdigit (j := 0) (by decide), hdigit (j := 1) (by decide),
      hdigit (j := 2) (by decide), bytesKeptOutside_storeBytes s _ (decimalDigits (s.reg x)), keepsAllBut_storeBytes s _ _⟩
  · exact ⟨_, rfl, haltsWith_afterCheck (checkAccess_of_reserved hlow)⟩
  · exact ⟨_, rfl, haltsWith_afterCheck (checkAccess_of_past_end (a := s.i.toNat) (fun _ => by omega) hhigh)⟩

/-- Settles O42: one block of bytes after a write check. A block has at most 16 bytes, so one that reaches past 0xFFF does not start
in the reserved area. -/
theorem registerBlockStored : Obligations.RegisterBlockStored := by
  refine fun x s => ⟨decodeOfEncode (.stRegs x), fun hlow hhigh => ?_, fun hlow => ?_, fun hhigh => ?_⟩
  · refine ⟨_, exec_stRegs_of_within hlow hhigh, fun r hr => ?_, ?_, keepsAllBut_storeBytes s _ _⟩
    · have hin : r.toNat < (s.regsUpTo x).length := by
        rw [State.length_regsUpTo]; exact Nat.lt_succ_of_le (BitVec.le_def.1 hr)
      rw [State.readByte_storeBytes_add s _ hin, State.getElem_regsUpTo hin]
    · exact s.length_regsUpTo x ▸ bytesKeptOutside_storeBytes s _ (s.regsUpTo x)
  · exact ⟨_, rfl, haltsWith_afterCheck (checkAccess_of_reserved hlow)⟩
  · have hx := x.isLt
    exact ⟨_, rfl, haltsWith_afterCheck (checkAccess_of_past_end (a := s.i.toNat) (fun _ => by omega) hhigh)⟩

/-- Settles O43: one block fill after a read check, which the reserved area passes. -/
theorem registerBlockLoaded : Obligations.RegisterBlockLoaded := by
  refine fun x s => ⟨decodeOfEncode (.ldRegs x), fun hhigh => ?_, fun hhigh => ?_⟩
  · exact ⟨_, exec_ldRegs_of_within hhigh, s.reg_fillRegs_loadBytes _ x, keepsAllBut_v s _⟩
  · exact ⟨_, rfl, haltsWith_afterCheck (checkAccess_of_past_end nofun hhigh)⟩

/-- Settles O44: the load (O43) reads the bytes that the store (O42) left. -/
theorem blockStoreThenLoad : Obligations.BlockStoreThenLoad := by
  intro x s t u hlow hhigh hstore hi hmem
  obtain ⟨-, hstored, -⟩ := registerBlockStored x s
  obtain ⟨t', hstore', hbytes, -⟩ := hstored hlow hhigh
  cases hstore.symm.trans hstore'
  obtain ⟨-, hloaded, -⟩ := registerBlockLoaded x u
  obtain ⟨w, hload, hregs, -⟩ := hloaded (by rwa [hi])
  refine ⟨w, hload, fun r hr => ?_, fun r hr => ?_⟩
  · rw [hregs, if_pos hr, hi, hmem, hbytes r hr]
  · rw [hregs, if_neg (BitVec.not_le.2 hr)]

/-- Settles O45: one write each, of a register, of DT and of ST. -/
theorem timerTransfers : Obligations.TimerTransfers := by
  refine fun x s => ⟨?_, ?_, ?_⟩
  · exact ⟨_, rfl, s.reg_setReg_self x s.dt, regsKeptBut_setReg s x _, keepsAllBut_setReg s x _⟩
  · exact ⟨_, rfl, rfl, keepsAllBut_timers_run s (.inl (by decide)) (.inr rfl) (.inr rfl)⟩
  · exact ⟨_, rfl, rfl, keepsAllBut_timers_run s (.inr rfl) (.inl (by decide)) (.inr rfl)⟩

/-- Settles O47: the instruction only suspends, so its cycle does not tick, and the resumption writes the code and ticks. -/
theorem keyWaitSuspendsThenCompletes : Obligations.KeyWaitSuspendsThenCompletes := by
  refine fun s inputs op x => ⟨⟨_, rfl, rfl, keepsAllBut_awaitingKey s x⟩, fun hrun hfetch hdec => ?_⟩
  have hfetched := (keepsAllBut_fetched s inputs op).mono (qs := [.run, .pc] ++ ownParts) (by decide)
  have hsuspend := (keepsAllBut_awaitingKey (({ s with events := [], inputs := inputs } : State).fetched op) x).mono
    (qs := [.run, .pc] ++ ownParts) (by decide)
  refine ⟨_, State.cycle_of_not_completed hrun hfetch hdec rfl nofun, rfl, rfl, hfetched.trans hsuspend, fun k hk => ?_⟩
  refine ⟨_, State.resume_of_awaitingKey rfl hk, ?_, rfl, rfl, toNat_countDown s.dt, toNat_countDown s.st⟩
  rw [State.tick_reg, State.reg_setReg_self, BitVec.toNat_ofNat]
  exact Nat.mod_eq_of_lt (by omega)

end Sys2Proof.Machine
end

section
/-! O48 to O51 and O54 (43_display.md R200 to R205): clearing the screen and drawing a sprite. A DRW whose rows can be read is
`drawSprite`; what that leaves in each cell and in VF is said once, in the words of the statements (`spriteBit`, `collides`). -/
namespace Sys2Proof.Machine

/-- A write of the framebuffer, the registers and the events keeps all but those parts, and the registers too if they get their own
value. -/
theorem keepsAllBut_display (s : State) {parts : List Part} {fb : Frame} {v : Vector Byte 16} {events : List Event}
    (hfb : .fb ∈ parts) (hevents : .events ∈ parts) (hregs : .regs ∈ parts ∨ v = s.v) :
    KeepsAllBut parts s { s with fb := fb, v := v, events := events } := by
  intro p hp
  cases p with
  | fb => exact absurd hfb hp
  | events => exact absurd hevents hp
  | regs => cases hregs.resolve_left hp; exact fun _ => rfl
  | mem => exact fun _ => rfl
  | _ => rfl

section
variable {x y n : Nibble} {s t : State}

/- ## What a draw leaves -/

theorem exec_drw_of_readable (h : n = 0#4 ∨ s.i.toNat + n.toNat ≤ 0x1000) :
    exec (.drw x y n) s = .next (s.drawSprite x y n) := by
  have hcheck : checkAccess .read s.i.toNat n.toNat = none := by
    rcases h with rfl | h
    · rfl
    · exact checkAccess_eq_none.2 fun _ _ _ => ⟨by omega, nofun⟩
  exact congrArg Host.Outcome.next (State.afterCheck_of_pass hcheck)

theorem eq_drawSprite_of_exec_drw (h : n = 0#4 ∨ s.i.toNat + n.toNat ≤ 0x1000) (ht : exec (.drw x y n) s = .next t) :
    t = s.drawSprite x y n :=
  Host.Outcome.next.inj (ht.symm.trans (exec_drw_of_readable h))

theorem haltsWith_exec_drw (hn : n ≠ 0#4) (hout : 0x1000 < s.i.toNat + n.toNat) :
    ∃ t, exec (.drw x y n) s = .next t ∧ HaltsWith (.addressOutOfRange (max s.i.toNat 0x1000)) s t := by
  obtain ⟨k, hk⟩ : ∃ k, n.toNat = k + 1 := Nat.exists_eq_succ_of_ne_zero fun h => hn (BitVec.eq_of_toNat_eq h)
  have hcheck : checkAccess .read s.i.toNat n.toNat = some (.addressOutOfRange (max s.i.toNat 0x1000)) :=
    hk ▸ checkAccess_of_past_end nofun (by omega)
  exact ⟨_, rfl, haltsWith_afterCheck hcheck⟩

theorem State.cell_drawSprite (s : State) (x y n : Nibble) {cx cy : Nat} (hx : cx ≤ 63) (hy : cy ≤ 31) :
    (s.drawSprite x y n).fb.cell cx cy = (s.fb.cell cx cy ^^ s.spriteBit x y n cx cy) := by
  obtain ⟨v, hv⟩ := s.drawSprite_eq x y n
  rw [hv, ← s.rowsPixel_eq_spriteBit]
  exact cell_plotRows _ cx cy _ _ _ hx hy

theorem State.drawSprite_events (s : State) (x y n : Nibble) :
    (s.drawSprite x y n).events = s.events ++ [.displayChanged] := by
  obtain ⟨v, hv⟩ := s.drawSprite_eq x y n
  rw [hv]

theorem keepsAllBut_drawSprite (s : State) (x y n : Nibble) :
    KeepsAllBut [.fb, .regs, .events] s (s.drawSprite x y n) := by
  obtain ⟨v, hv⟩ := s.drawSprite_eq x y n
  rw [hv]
  exact keepsAllBut_display s (by decide) (by decide) (.inl (by decide))

theorem regsKeptBut_drawSprite (s : State) (x y n : Nibble) : RegsKeptBut [15] s (s.drawSprite x y n) := by
  intro r hr
  rw [State.reg_drawSprite, if_neg fun h => hr (List.mem_singleton.2 h.1)]

/- ## VF -/

/-- The collision that a draw finds is the one of the statements. -/
theorem State.collision_plotRows_iff_collides (s : State) (x y n : Nibble) :
    (plotRows (s.reg x).toNat (s.reg y).toNat (s.loadBytes s.base n.toNat) (s.fb, false)).2 = true ↔ s.collides x y n := by
  simp only [collision_plotRows, State.rowsPixel_eq_spriteBit, Bool.false_eq_true, false_or, State.collides]

theorem State.not_collides_height_zero (s : State) (x y : Nibble) : ¬ s.collides x y 0#4 := by
  rintro ⟨cx, cy, -, -, hbit, -⟩
  rw [← s.rowsPixel_eq_spriteBit] at hbit
  simp [rowsPixel, State.loadBytes] at hbit

theorem State.vf_drawSprite_of_collides (h : s.collides x y n) : (s.drawSprite x y n).reg 15 = 1#8 := by
  have hn : n ≠ 0 := by rintro rfl; exact s.not_collides_height_zero x y h
  rw [State.reg_drawSprite, if_pos ⟨rfl, hn⟩, if_pos ((s.collision_plotRows_iff_collides x y n).2 h)]
  rfl

theorem State.vf_drawSprite_of_not_collides (h : ¬ s.collides x y n) (hn : n ≠ 0#4) :
    (s.drawSprite x y n).reg 15 = if s.cfg.drwClearsVf then 0#8 else s.reg 15 := by
  rw [State.reg_drawSprite, if_pos ⟨rfl, hn⟩, if_neg (mt (s.collision_plotRows_iff_collides x y n).1 h)]
  rfl

theorem State.vf_drawSprite_height_zero (s : State) (x y : Nibble) : (s.drawSprite x y 0#4).reg 15 = s.reg 15 := by
  rw [State.reg_drawSprite, if_neg fun h => h.2 rfl]

/- ## Drawing twice -/

/-- The sprite depends on the origin's registers, on `I` and on the bytes of memory alone. -/
theorem State.spriteBit_congr {u : State} (hi : u.i = s.i) (hx : u.reg x = s.reg x) (hy : u.reg y = s.reg y)
    (hmem : ∀ a, u.readByte a = s.readByte a) (cx cy : Nat) : u.spriteBit x y n cx cy = s.spriteBit x y n cx cy := by
  simp only [State.spriteBit, hi, hx, hy, hmem]

theorem State.spriteBit_of_zero_byte {j : Nat} (h : s.readByte (s.i.toNat + j) = 0) (cx : Nat) :
    s.spriteBit x y n cx ((s.reg y).toNat + j) = false := by
  rw [State.spriteBit, Nat.add_sub_cancel_left, h]
  simp

section
variable {u : State} (hfb : u.fb = (s.drawSprite x y n).fb)
  (hsprite : ∀ cx cy, u.spriteBit x y n cx cy = s.spriteBit x y n cx cy)
include hfb hsprite

theorem State.fb_drawSprite_twice : (u.drawSprite x y n).fb = s.fb := by
  refine Frame.ext_cell fun cx cy hcx hcy => ?_
  rw [State.cell_drawSprite u x y n hcx hcy, hsprite, hfb, State.cell_drawSprite s x y n hcx hcy, Bool.xor_assoc, Bool.xor_self,
    Bool.xor_false]

/-- The second draw collides on each cell that the first one turned on. -/
theorem State.collides_of_turned_on {cx cy : Nat} (hcx : cx ≤ 63) (hcy : cy ≤ 31) (hbit : s.spriteBit x y n cx cy = true)
    (hcell : s.fb.cell cx cy = false) : u.collides x y n := by
  have hset : u.fb.cell cx cy = true := by rw [hfb, State.cell_drawSprite s x y n hcx hcy, hcell, hbit]; rfl
  exact ⟨cx, cy, hcx, hcy, (hsprite cx cy).trans hbit, hset⟩

end

/-- Where draws do not clear VF, one that finds it 1 leaves it 1. -/
theorem State.vf_drawSprite_of_one (hclear : s.cfg.drwClearsVf = false) (hvf : s.reg 15 = 1#8) :
    (s.drawSprite x y n).reg 15 = 1#8 := by
  by_cases hcoll : s.collides x y n
  · exact State.vf_drawSprite_of_collides hcoll
  by_cases hn : n = 0#4
  · rw [hn, State.vf_drawSprite_height_zero, hvf]
  · rw [State.vf_drawSprite_of_not_collides hcoll hn, hclear, if_neg Bool.false_ne_true, hvf]

/- ## The notification -/

@[simp] theorem State.endCycle_events (s : State) : s.endCycle.events = s.events := by
  rw [State.endCycle_eq]; split <;> rfl

@[simp] theorem State.endCycle_run (s : State) : s.endCycle.run = s.run := by
  rw [State.endCycle_eq]; split <;> rfl

/-- An instruction other than CLS and DRW emits no event; a fault discards those there were. -/
theorem ExecEffect.events_eq {i : Instr} (h : ExecEffect i s t) :
    t.events = s.events ∨ t.events = [] ∨ i = .cls ∨ ∃ x y n, i = .drw x y n := by
  cases h with
  | fault k => exact .inr (.inl rfl)
  | draw hi => exact .inr (.inr hi)
  | _ => exact .inl rfl

/-- A DRW emits its notification and leaves `run`, or takes a fault. -/
theorem exec_drw_events (h : exec (.drw x y n) s = .next t) :
    (t.run = s.run ∧ t.events = s.events ++ [.displayChanged]) ∨ ∃ k, t = s.takeFault k := by
  cases h
  rcases s.afterCheck_cases .read s.base n.toNat (·.drawSprite x y n) with ⟨-, e⟩ | ⟨k, -, e⟩
  · rw [e]; exact .inl ⟨keepsAllBut_drawSprite s x y n .run (by decide), s.drawSprite_events x y n⟩
  · exact .inr ⟨k, e⟩

/-- The events of an instruction that starts with none, on a running core. -/
theorem events_of_exec {i : Instr} (h : exec i s = .next t) (hrun : s.run = .running) (hnone : s.events = []) :
    t.events = if (i = .cls ∨ ∃ x y n, i = .drw x y n) ∧ t.run = .running then [.displayChanged] else [] := by
  by_cases hdisplay : i = .cls ∨ ∃ x y n, i = .drw x y n
  · rcases hdisplay with rfl | ⟨x, y, n, rfl⟩
    · cases h
      rw [if_pos ⟨.inl rfl, hrun⟩, State.notifyDisplay_events, hnone]; rfl
    · rcases exec_drw_events h with ⟨htrun, hevents⟩ | ⟨k, rfl⟩
      · rw [if_pos ⟨.inr ⟨x, y, n, rfl⟩, htrun.trans hrun⟩, hevents, hnone]; rfl
      · rw [if_neg fun hdrawn => nomatch hdrawn.2]; rfl
  · rw [if_neg fun hdrawn => hdisplay hdrawn.1]
    rcases (exec_effect h).events_eq with hkept | hdiscarded | hi
    · exact hkept.trans hnone
    · exact hdiscarded
    · exact absurd hi hdisplay

end

/- ## The statements -/

/-- Settles O49: the draw cell by cell, with its frames; the access check fails where a row lies above 0xFFF. -/
theorem drawXorsSpriteIntoGrid : Obligations.DrawXorsSpriteIntoGrid :=
  fun x y n s => ⟨decodeOfEncode (.drw x y n),
    fun h => ⟨_, exec_drw_of_readable h, fun _ _ => s.cell_drawSprite x y n, s.drawSprite_events x y n,
      regsKeptBut_drawSprite s x y n, keepsAllBut_drawSprite s x y n⟩,
    haltsWith_exec_drw⟩

/-- Settles O50: VF after a draw, by whether it collides; a draw of height 0 has no pixel to collide. -/
theorem drawReportsCollision : Obligations.DrawReportsCollision := by
  intro x y n s t h ht
  cases eq_drawSprite_of_exec_drw h ht
  refine ⟨State.vf_drawSprite_of_collides, State.vf_drawSprite_of_not_collides, ?_⟩
  rintro rfl
  exact ⟨s.not_collides_height_zero x y, s.vf_drawSprite_height_zero x y⟩

/-- Settles O51: the second draw XORs the same pixels into each cell again, and collides where the first one turned a
cell on. A pixel on a set cell made the first draw collide instead, and VF stays 1 where draws do not clear it. -/
theorem drawTwiceRestores : Obligations.DrawTwiceRestores := by
  intro x y n s t u w h ht hfb hi hx hy hmem hw
  cases eq_drawSprite_of_exec_drw h ht
  cases eq_drawSprite_of_exec_drw (hi ▸ h) hw
  have hsprite := State.spriteBit_congr (n := n) hi hx hy hmem
  refine ⟨fun cx cy => by rw [State.fb_drawSprite_twice hfb hsprite], ?_, fun hclear hvf => ?_, fun j _ hzero cx => ?_⟩
  · rintro ⟨cx, cy, hcx, hcy, hbit, hcell⟩
    exact State.vf_drawSprite_of_collides (State.collides_of_turned_on hfb hsprite hcx hcy hbit hcell)
  · rintro ⟨cx, cy, hcx, hcy, hbit⟩
    cases hcell : s.fb.cell cx cy with
    | false => exact State.vf_drawSprite_of_collides (State.collides_of_turned_on hfb hsprite hcx hcy hbit hcell)
    | true =>
      have hfirst : s.collides x y n := ⟨cx, cy, hcx, hcy, hbit, hcell⟩
      exact State.vf_drawSprite_of_one hclear (hvf.trans (State.vf_drawSprite_of_collides hfirst))
  · by_cases hgrid : 63 < cx ∨ 31 < (s.reg y).toNat + j
    · rw [Frame.cell_outside _ hgrid, Frame.cell_outside _ hgrid]
    · rw [State.cell_drawSprite s x y n (by omega) (by omega), State.spriteBit_of_zero_byte hzero, Bool.xor_false]

/-- Settles O54: a cycle starts its instruction with no event, and its end neither emits one nor changes `run`. -/
theorem displayEventsOfCycle : Obligations.DisplayEventsOfCycle := by
  intro s t inputs op i hrun hfetch hdec hcycle
  obtain ⟨u, hexec, -⟩ := exec_cases i (({ s with events := [], inputs := inputs } : State).fetched op)
  rw [State.cycle_of_decode hrun hfetch hdec, hexec] at hcycle
  cases hcycle
  rw [State.endCycle_events, State.endCycle_run]
  exact events_of_exec hexec hrun rfl

/-- Settles O48: the cleared framebuffer has no cell set, and the notification is the only other write. -/
theorem clearUnsetsEveryCell : Obligations.ClearUnsetsEveryCell :=
  ⟨decodeOfEncode .cls, fun s => ⟨_, rfl, Frame.cell_clear, rfl,
    keepsAllBut_display s (by decide) (by decide) (.inr rfl)⟩⟩

end Sys2Proof.Machine
end

section
/-! O13, O17, O18 and O29 (60_exceptions.md R220 to R230): a cycle that halts a running core takes one fault, and why it does is
said once, for the fetch, for the decoder and for each instruction that can fault. -/
namespace Sys2Proof.Machine

/- ## The fault of an instruction -/

/-- The instruction takes the fault `k` in the state the fetch left: the stack, the index sum or an address stops it. -/
def FaultCause (s : State) : Instr → FaultKind → Prop
  | .ret, k => s.stack = [] ∧ k = .stackUnderflow
  | .call _, k => s.stackFull = true ∧ k = .stackOverflow s.stack.length
  | .addI x, k => 0xFFFF < s.indexSum x ∧ k = .indexOverflow (s.indexSum x)
  | .drw _ _ n, k => checkAccess .read s.i.toNat n.toNat = some k
  | .ldB _, k => checkAccess .write s.i.toNat 3 = some k
  | .stRegs x, k => checkAccess .write s.i.toNat (x.toNat + 1) = some k
  | .ldRegs x, k => checkAccess .read s.i.toNat (x.toNat + 1) = some k
  | _, _ => False

section
variable {s t : State} {f : FaultRecord}

/-- A state in which the core runs is not halted. -/
theorem ne_halted_of_running (hrun : t.run = .running) : t.run ≠ .halted f := fun h => nomatch hrun.symm.trans h

theorem afterCheck_halts {kind : AccessKind} {a k : Nat} {e : State → State} (hpass : (e s).run = .running)
    (hhalt : (s.afterCheck kind a k e).run = .halted f) :
    ∃ fault, checkAccess kind a k = some fault ∧ s.afterCheck kind a k e = s.takeFault fault := by
  rcases s.afterCheck_cases kind a k e with ⟨-, he⟩ | hfault
  · exact absurd (he ▸ hhalt) (ne_halted_of_running hpass)
  · exact hfault

theorem State.storeBytes_run (s : State) (a : Nat) (bs : List Byte) : (s.storeBytes a bs).run = s.run := by
  obtain ⟨m, hm⟩ := State.storeBytes_eq bs s a
  rw [hm]

theorem State.writeResultAndFlag_run (s : State) (x : Nibble) (res : Byte) (flg : Bool) :
    (s.writeResultAndFlag x res flg).run = s.run := by
  obtain ⟨v, hv⟩ := s.writeResultAndFlag_eq x res flg
  rw [hv]

theorem State.drawSprite_run (s : State) (x y n : Nibble) : (s.drawSprite x y n).run = s.run :=
  keepsAllBut_drawSprite s x y n .run (by decide)

/-- An instruction that halts a running core takes a fault that it has the cause for, and does nothing else. -/
theorem exec_halts {i : Instr} (hexec : exec i s = .next t) (hrun : s.run = .running) (hhalt : t.run = .halted f) :
    ∃ k, FaultCause s i k ∧ t = s.takeFault k := by
  cases i with
  | ret =>
    cases hstack : s.stack with
    | nil => cases hexec; exact ⟨_, ⟨hstack, rfl⟩, by rw [hstack]⟩
    | cons top rest =>
      cases hexec.symm.trans (exec_ret_of_stack_eq_cons hstack)
      exact absurd hhalt (ne_halted_of_running hrun)
  | call nnn =>
    cases hfull : s.stackFull with
    | true => exact ⟨_, ⟨hfull, rfl⟩, Host.Outcome.next.inj (hexec.symm.trans (exec_call_of_stackFull nnn hfull))⟩
    | false =>
      cases hexec.symm.trans (exec_call_of_room nnn hfull)
      exact absurd hhalt (ne_halted_of_running hrun)
  | addI x =>
    rcases Nat.lt_or_ge 0xFFFF (s.indexSum x) with hover | hfits
    · exact ⟨_, ⟨hover, rfl⟩, Host.Outcome.next.inj (hexec.symm.trans (exec_addI_of_gt hover))⟩
    · cases hexec.symm.trans (exec_addI_of_le hfits)
      exact absurd hhalt (ne_halted_of_running hrun)
  | drw x y n => cases hexec; exact afterCheck_halts ((s.drawSprite_run x y n).trans hrun) hhalt
  | ldB x => cases hexec; exact afterCheck_halts ((s.storeBytes_run _ _).trans hrun) hhalt
  | stRegs x => cases hexec; exact afterCheck_halts ((s.storeBytes_run _ _).trans hrun) hhalt
  | ldRegs x => cases hexec; exact afterCheck_halts hrun hhalt
  | addReg x _ | subReg x _ | shrReg x _ | subnReg x _ | shlReg x _ =>
    cases hexec
    exact absurd hhalt (ne_halted_of_running ((s.writeResultAndFlag_run x _ _).trans hrun))
  | ldKey x => cases hexec; cases hhalt
  | _ => cases hexec; exact absurd hhalt (ne_halted_of_running hrun)

/- ## The fault of a cycle -/

/-- The state a fault leaves: the core halted with the record, the cycle's own record latched, nothing else changed. -/
def State.haltedBy (s : State) (inputs : CycleInputs) (op : Option Word) (k : FaultKind) : State :=
  ({ s with events := [], inputs := inputs, cur := { addr := s.pc, op := op } } : State).takeFault k

theorem keepsAllBut_haltedBy (s : State) (inputs : CycleInputs) (op : Option Word) (k : FaultKind) :
    KeepsAllBut (.run :: ownParts) s (s.haltedBy inputs op k) := by
  intro p hp
  cases p with
  | run | inbox | freeCycles | inputs | cur | events => exact absurd (by decide) hp
  | mem | regs => exact fun _ => rfl
  | fb => exact fun _ _ => rfl
  | _ => rfl

/-- Why a cycle of a running core takes the fault `k`, with the word its record holds (60_exceptions.md R229). -/
inductive CycleFault (s : State) : Option Word → FaultKind → Prop
  | fetch {k : FaultKind} (hfetch : s.fetch = .error k) : CycleFault s none k
  | decode {op : Word} (hfetch : s.fetch = .ok op) (hillegal : legalWord op = false) :
      CycleFault s (some op) (.decodeFailure op)
  | exec {op : Word} {i : Instr} {k : FaultKind} (hfetch : s.fetch = .ok op) (hdec : decode op = .ok i)
      (hcause : FaultCause s i k) : CycleFault s (some op) k

/-- No cause reads `pc` or the model's own record, so the state the fetch left has the causes of the cycle's first state. -/
theorem faultCause_of_fetched {inputs : CycleInputs} {op : Word} {i : Instr} {k : FaultKind}
    (h : FaultCause (({ s with events := [], inputs := inputs } : State).fetched op) i k) : FaultCause s i k := by
  cases i <;> exact h

theorem legalWord_eq_false_of_decode_error {w : Word} {e : DecodeError} (h : decode w = .error e) : legalWord w = false :=
  Bool.eq_false_iff.2 fun hlegal =>
    have ⟨_, hi⟩ := legalWord_iff.1 hlegal
    nomatch h.symm.trans hi

/-- A cycle that halts a running core takes one fault, for a cause found in the state it began in. -/
theorem State.cycle_halts {inputs : CycleInputs} (hrun : s.run = .running) (hcycle : s.cycle inputs = .next t)
    (hhalt : t.run = .halted f) : ∃ op k, CycleFault s op k ∧ t = s.haltedBy inputs op k := by
  rcases s.cycle_cases inputs hrun with ⟨k, hfetch, hc⟩ | ⟨op, e, hfetch, hdec, hc⟩ | ⟨op, i, u, hfetch, hdec, hexec, hc⟩ <;>
    cases hcycle.symm.trans hc
  · exact ⟨none, k, .fetch hfetch, rfl⟩
  · exact ⟨some op, _, .decode hfetch (legalWord_eq_false_of_decode_error hdec), rfl⟩
  · rw [State.endCycle_run] at hhalt
    obtain ⟨k, hcause, rfl⟩ := exec_halts hexec hrun hhalt
    exact ⟨some op, k, .exec hfetch hdec (faultCause_of_fetched hcause), rfl⟩

theorem State.cycle_of_fetch_error {inputs : CycleInputs} {k : FaultKind} (hrun : s.run = .running)
    (hfetch : s.fetch = .error k) : s.cycle inputs = .next (s.haltedBy inputs none k) := by
  rcases s.cycle_cases inputs hrun with ⟨k', hf, hc⟩ | ⟨op, e, hf, -⟩ | ⟨op, i, u, hf, -⟩ <;> cases hfetch.symm.trans hf
  exact hc

theorem State.cycle_of_illegal {inputs : CycleInputs} {op : Word} (hrun : s.run = .running) (hfetch : s.fetch = .ok op)
    (hillegal : legalWord op = false) : s.cycle inputs = .next (s.haltedBy inputs (some op) (.decodeFailure op)) := by
  obtain ⟨herr, -⟩ := decode_of_not_legalWord hillegal
  rcases s.cycle_cases inputs hrun with ⟨k, hf, -⟩ | ⟨op', e, hf, -, hc⟩ | ⟨op', i, u, hf, hd, -⟩ <;> cases hfetch.symm.trans hf
  · exact hc
  · cases herr.symm.trans hd

end

/- ## What the fault of an instruction records -/

/-- The fault of a failed access of `a .. a+k`: its first address is reserved, or else its last is above 0xFFF. -/
theorem checkAccess_fault {kind : AccessKind} {a k : Nat} {fault : FaultKind} (h : checkAccess kind a (k + 1) = some fault) :
    (fault = .reservedWrite a ∧ kind = .write ∧ a < 0x200) ∨
      (fault = .addressOutOfRange (max a 0x1000) ∧ (kind = .write → 0x200 ≤ a) ∧ 0xFFF < a + k) := by
  by_cases hreserved : kind = .write ∧ a < 0x200
  · obtain ⟨rfl, hlow⟩ := hreserved
    cases h.symm.trans (checkAccess_of_reserved hlow)
    exact .inl ⟨rfl, rfl, hlow⟩
  · have hlow : kind = .write → 0x200 ≤ a := fun hwrite => Nat.le_of_not_lt fun hlt => hreserved ⟨hwrite, hlt⟩
    rcases Nat.lt_or_ge 0xFFF (a + k) with hpast | hwithin
    · cases h.symm.trans (checkAccess_of_past_end hlow hpast)
      exact .inr ⟨rfl, hlow, hpast⟩
    · cases h.symm.trans (checkAccess_of_within hlow hwithin)

/-- A failed read reaches at least one address, and one above 0xFFF. -/
theorem checkAccess_read_fault {a k : Nat} {fault : FaultKind} (h : checkAccess .read a k = some fault) :
    fault = .addressOutOfRange (max a 0x1000) ∧ 0 < k ∧ 0x1000 < a + k := by
  cases k with
  | zero => cases h
  | succ k =>
    rcases checkAccess_fault h with ⟨-, hkind, -⟩ | ⟨hfault, -, hpast⟩
    · cases hkind
    · exact ⟨hfault, Nat.succ_pos k, Nat.succ_lt_succ hpast⟩

theorem State.exists_stackLimit_of_stackFull {s : State} (h : s.stackFull = true) :
    ∃ limit, s.cfg.stackLimit = some limit ∧ limit ≤ s.stack.length := by
  unfold State.stackFull at h
  split at h
  · cases h
  next limit hlimit => exact ⟨limit, hlimit, of_decide_eq_true h⟩

theorem eq_of_decode_ret {w : Word} (h : decode w = .ok .ret) : w = 0x00EE#16 := matchesWord_whole.1 (matchesWord_of_decode h)

/- ## The statements -/

/-- Settles O13: the two faults of the fetch and the illegal word, each of which leaves `haltedBy`. -/
theorem cycleFaultsBeforeExecution : Obligations.CycleFaultsBeforeExecution := by
  refine fun s inputs hrun => ⟨fun hodd => ?_, fun heven hout => ?_, fun op hfetch hillegal => ?_⟩
  · exact ⟨_, State.cycle_of_fetch_error hrun (State.fetch_of_odd hodd), rfl, keepsAllBut_haltedBy s inputs _ _⟩
  · exact ⟨_, State.cycle_of_fetch_error hrun (State.fetch_of_out_of_range heven hout), rfl, keepsAllBut_haltedBy s inputs _ _⟩
  · exact ⟨_, State.cycle_of_illegal hrun hfetch hillegal, rfl, keepsAllBut_haltedBy s inputs _ _⟩

/-- Settles O17: whatever its cause, the fault leaves `haltedBy`. -/
theorem faultsArePrecise : Obligations.FaultsArePrecise := by
  intro s t inputs f hrun hcycle hhalt
  obtain ⟨op, k, -, rfl⟩ := State.cycle_halts hrun hcycle hhalt
  cases hhalt
  exact ⟨keepsAllBut_haltedBy s inputs op k, rfl, rfl, rfl⟩

/-- Settles O18: the fault is the fetch's, the decoder's or the instruction's, and each cause fixes the kind and its value. -/
theorem everyFaultHasItsCause : Obligations.EveryFaultHasItsCause := by
  intro s t inputs f hrun hcycle hhalt
  obtain ⟨op, k, hfault, rfl⟩ := State.cycle_halts hrun hcycle hhalt
  cases hhalt
  cases hfault with
  | fetch hfetch =>
    rcases s.fetch_cases with ⟨hodd, hf⟩ | ⟨heven, hout, hf⟩ | ⟨-, -, hf⟩ <;> cases hfetch.symm.trans hf
    · exact ⟨rfl, rfl, hodd⟩
    · exact .inl ⟨rfl, heven, hout, rfl⟩
  | decode hfetch hillegal => exact ⟨hfetch, rfl, hillegal⟩
  | @exec w i _ hfetch hdec hcause =>
    cases i with
    | ret =>
      obtain ⟨hstack, rfl⟩ := hcause
      cases eq_of_decode_ret hdec
      exact ⟨hfetch, rfl, hstack⟩
    | call nnn =>
      obtain ⟨hfull, rfl⟩ := hcause
      obtain ⟨limit, hlimit, hle⟩ := State.exists_stackLimit_of_stackFull hfull
      exact ⟨⟨w, nnn, hfetch, rfl, hdec⟩, rfl, limit, hlimit, hle, fun hinv => le_antisymm (hinv.stack_le limit hlimit) hle⟩
    | addI x =>
      obtain ⟨hover, rfl⟩ := hcause
      exact ⟨hover, w, x, hfetch, rfl, hdec, rfl⟩
    | drw x y n =>
      obtain ⟨rfl, hpos, hpast⟩ := checkAccess_read_fault hcause
      have hn : n ≠ 0#4 := by rintro rfl; cases hpos
      exact .inr ⟨w, hfetch, rfl, rfl, .inl ⟨x, y, n, hdec, hn, hpast⟩⟩
    | ldRegs x =>
      obtain ⟨rfl, -, hpast⟩ := checkAccess_read_fault hcause
      exact .inr ⟨w, hfetch, rfl, rfl, .inr (.inr (.inr ⟨x, hdec, Nat.lt_of_succ_lt_succ hpast⟩))⟩
    | ldB x =>
      rcases checkAccess_fault hcause with ⟨rfl, -, hreserved⟩ | ⟨rfl, hlow, hpast⟩
      · exact ⟨hreserved, rfl, w, hfetch, rfl, x, .inl hdec⟩
      · exact .inr ⟨w, hfetch, rfl, rfl, .inr (.inl ⟨x, hdec, hlow rfl, hpast⟩)⟩
    | stRegs x =>
      rcases checkAccess_fault hcause with ⟨rfl, -, hreserved⟩ | ⟨rfl, hlow, hpast⟩
      · exact ⟨hreserved, rfl, w, hfetch, rfl, x, .inr hdec⟩
      · exact .inr ⟨w, hfetch, rfl, rfl, .inr (.inr (.inl ⟨x, hdec, hlow rfl, hpast⟩))⟩
    | _ => cases hcause

/-- A checked access never underflows the stack. -/
theorem checkAccess_ne_stackUnderflow (kind : AccessKind) (a k : Nat) : checkAccess kind a k ≠ some .stackUnderflow := by
  intro h
  obtain ⟨_, -, -, -, ⟨h, -⟩ | ⟨h, -⟩⟩ := checkAccess_eq_some h <;> cases h

theorem FaultCause.of_stackUnderflow {s : State} {i : Instr} (h : FaultCause s i .stackUnderflow) : i = .ret ∧ s.stack = [] := by
  cases i with
  | ret =>
    obtain ⟨hstack, -⟩ := h
    exact ⟨rfl, hstack⟩
  | call | addI =>
    obtain ⟨-, hk⟩ := h
    cases hk
  | drw | ldB | stRegs | ldRegs => exact absurd h (checkAccess_ne_stackUnderflow _ _ _)
  | _ => cases h

/-- Settles O29: the pop and the underflow of RET, and RET is the one instruction with the underflow's cause. -/
theorem returnPopsStack : Obligations.ReturnPopsStack := by
  refine ⟨fun s => ⟨fun top rest hstack => ?_, fun hstack => ?_⟩, fun i s t f hrun hexec hhalt hkind => ?_⟩
  · exact ⟨_, exec_ret_of_stack_eq_cons hstack, rfl, rfl, keepsAllBut_pc_stack s _ _⟩
  · exact ⟨_, by rw [exec, execRet, hstack], haltsWith_takeFault s _⟩
  · obtain ⟨k, hcause, rfl⟩ := exec_halts hexec hrun hhalt
    cases hhalt
    cases hkind
    exact hcause.of_stackUnderflow

end Sys2Proof.Machine
end

section
/-! O19 to O21 (60_exceptions.md R231, R238, R245, R246): the halted and the suspended core, and the resumption. -/
namespace Sys2Proof.Machine

section
variable {s t : State}

/-- A step is one of the host's transactions, on the state with the inbox or the counter of free inputs moved on. -/
theorem step_cases (h : step s = .next t) :
    (∃ inputs n, ({ s with inbox := s.inbox.tail, freeCycles := n } : State).cycle inputs = .next t) ∨
    (∃ k rest, s.inbox = .resume k :: rest ∧ ({ s with inbox := rest } : State).resume k = .next t) ∨
    (∃ rest, s.inbox = .reset :: rest ∧ t = ({ s with inbox := rest } : State).doReset) ∨
    (∃ image rest, s.inbox = .load image :: rest ∧ ({ s with inbox := rest } : State).load image = .next t) := by
  cases hinbox : s.inbox with
  | nil =>
    rw [step_of_inbox_nil hinbox] at h
    rw [List.tail_nil, ← hinbox]
    exact .inl ⟨_, _, h⟩
  | cons op rest =>
    rw [step_of_inbox_cons hinbox] at h
    cases op with
    | cycle inputs => exact .inl ⟨inputs, s.freeCycles, h⟩
    | resume k => exact .inr (.inl ⟨k, rest, rfl, h⟩)
    | reset => exact .inr (.inr (.inl ⟨rest, rfl, (Host.Outcome.next.inj h).symm⟩))
    | load image => exact .inr (.inr (.inr ⟨image, rest, rfl, h⟩))

/-- A load has a transition only where reset left the core, which then runs (70_reset_and_hazards.md R264). -/
theorem State.run_of_load {image : List Byte} (h : s.load image = .next t) : s.run = .running := by
  unfold State.load at h
  split at h
  next hreset => exact congrArg State.run hreset
  next => cases h

theorem State.resume_refused_of_not_awaitingKey (k : Nat) (h : ∀ x, s.run ≠ .awaitingKey x) :
    s.resume k = .refused .resumeRefused := by
  unfold State.resume
  split
  next x hx => exact absurd hx (h x)
  · rfl
  · rfl

theorem State.resume_refused_of_gt {k : Nat} (h : 15 < k) : s.resume k = .refused .resumeRefused := by
  unfold State.resume
  split
  · exact if_neg (Nat.not_le.2 h)
  · rfl
  · rfl

/-- Only a resumption or a reset changes `run` in a core that does not run. -/
theorem run_of_step_of_not_running (hrun : s.run ≠ .running) (h : step s = .next t) :
    t.run = s.run ∨ (∃ k rest, s.inbox = .resume k :: rest ∧ ({ s with inbox := rest } : State).resume k = .next t) ∨
      ∃ rest, s.inbox = .reset :: rest := by
  rcases step_cases h with ⟨inputs, n, hc⟩ | hresume | ⟨rest, hinbox, -⟩ | ⟨image, rest, -, hload⟩
  · cases hc.symm.trans (State.cycle_not_running _ inputs hrun)
    exact .inl rfl
  · exact .inr (.inl hresume)
  · exact .inr (.inr ⟨rest, hinbox⟩)
  · exact absurd (State.run_of_load hload) hrun

/- ## Waiting -/

/-- A write of the model's own record keeps everything else. -/
theorem keepsAllBut_ownParts (s : State) (inbox : List HostOp) (n : Nat) (events : List Event) :
    KeepsAllBut ownParts s { s with inbox := inbox, freeCycles := n, events := events } := by
  intro p hp
  cases p with
  | inbox | freeCycles | inputs | cur | events => exact absurd (by decide) hp
  | mem | regs => exact fun _ => rfl
  | fb => exact fun _ _ => rfl
  | _ => rfl

/-- A step of a core that does not run, whose host only asks for cycles, drops the first of the inbox and keeps the core. -/
theorem step_of_cycles (hrun : s.run ≠ .running) (hcycles : ∀ op ∈ s.inbox, op.isCycle = true) :
    ∃ n, step s = .next { s with inbox := s.inbox.tail, freeCycles := n, events := [] } := by
  cases hinbox : s.inbox with
  | nil =>
    refine ⟨s.freeCycles + 1, ?_⟩
    rw [step_of_inbox_nil hinbox, List.tail_nil, ← hinbox]
    exact State.cycle_not_running _ _ hrun
  | cons op rest =>
    rw [step_of_inbox_cons hinbox]
    have hop : op.isCycle = true := hcycles op (hinbox ▸ List.mem_cons_self)
    cases op with
    | cycle inputs => exact ⟨s.freeCycles, State.cycle_not_running _ inputs hrun⟩
    | _ => cases hop

theorem run_succ_of_step (M : Host.Core) {u w : M.State} (n : Nat) (h : M.step u = .next w) :
    M.run (n + 1) u = M.run n w := by
  rw [Host.Core.run, h]

/-- Any number of cycles leaves a core that does not run as it is. -/
theorem run_of_cycles (n : Nat) (hrun : s.run ≠ .running) (hcycles : ∀ op ∈ s.inbox, op.isCycle = true) :
    ∃ t, Host.Core.run Sys2Proof.core n s = .next t ∧ KeepsAllBut ownParts s t := by
  induction n generalizing s with
  | zero => exact ⟨s, rfl, keepsAllBut_refl _ s⟩
  | succ n ih =>
    obtain ⟨m, hstep⟩ := step_of_cycles hrun hcycles
    obtain ⟨t, ht, hkept⟩ := ih (s := { s with inbox := s.inbox.tail, freeCycles := m, events := [] }) hrun
      fun op hop => hcycles op (List.mem_of_mem_tail hop)
    exact ⟨t, (run_succ_of_step Sys2Proof.core n hstep).trans ht, (keepsAllBut_ownParts s _ m []).trans hkept⟩

/-- A cycle leaves the core waiting only if it was, or if it ran LD Vx, K (60_exceptions.md R238). -/
theorem State.awaitingKey_of_cycle {inputs : CycleInputs} {x : Nibble} (hcycle : s.cycle inputs = .next t)
    (ht : t.run = .awaitingKey x) :
    s.run = .awaitingKey x ∨ s.run = .running ∧ ∃ op, s.fetch = .ok op ∧ decode op = .ok (.ldKey x) := by
  by_cases hrun : s.run = .running
  · rcases s.cycle_cases inputs hrun with ⟨k, -, hc⟩ | ⟨op, e, -, -, hc⟩ | ⟨op, i, u, hfetch, hdec, hexec, hc⟩ <;>
      cases hcycle.symm.trans hc
    · cases ht
    · cases ht
    · rw [State.endCycle_run] at ht
      rcases (exec_effect hexec).run_eq with hkept | ⟨y, rfl, hwait⟩ | ⟨f, hhalt⟩
      · cases ht.symm.trans (hkept.trans hrun)
      · cases ht.symm.trans hwait
        exact .inr ⟨hrun, op, hfetch, hdec⟩
      · cases ht.symm.trans hhalt
  · cases hcycle.symm.trans (s.cycle_not_running inputs hrun)
    exact .inl ht

end

/-- The resumption writes `run`, the register, the timers, `alert` and the events alone. -/
theorem keepsAllBut_resumed (s : State) (x : Nibble) (b : Byte) :
    KeepsAllBut [.run, .regs, .dt, .st, .alert, .events] s
      (({ s with events := [], run := .running } : State).setReg x b).tick := by
  intro p hp
  cases p with
  | run | regs | dt | st | alert | events => exact absurd (by decide) hp
  | mem => exact fun _ => rfl
  | fb => exact fun _ _ => rfl
  | _ => rfl

/- ## The statements -/

/-- Settles O19: of the two transactions that end a wait, a halted core refuses the resumption. -/
theorem onlyResetLeavesHalted : Obligations.OnlyResetLeavesHalted := by
  intro s f hhalt
  have hrun : s.run ≠ .running := fun h => nomatch hhalt.symm.trans h
  refine ⟨fun inputs => s.cycle_not_running inputs hrun, by rw [State.outcome, hhalt], fun t hstep ht => ?_⟩
  rcases run_of_step_of_not_running hrun hstep with hkept | ⟨k, rest, -, hresume⟩ | hreset
  · exact absurd (hkept.trans hhalt) ht
  · cases hresume.symm.trans (State.resume_refused_of_not_awaitingKey k fun x hx => nomatch hhalt.symm.trans hx)
  · exact hreset

/-- Settles O20: a suspended core is one that does not run; of the transactions only a cycle can suspend, in LD Vx, K. -/
theorem suspendedCoreWaits : Obligations.SuspendedCoreWaits := by
  refine ⟨fun s x hwait => ?_, fun s t x hstep ht => ?_⟩
  · have hrun : s.run ≠ .running := fun h => nomatch hwait.symm.trans h
    refine ⟨fun inputs => s.cycle_not_running inputs hrun, by rw [State.outcome, hwait], fun t hstep ht => ?_,
      fun n => run_of_cycles n hrun⟩
    rcases run_of_step_of_not_running hrun hstep with hkept | ⟨k, rest, hinbox, -⟩ | ⟨rest, hinbox⟩
    · exact absurd (hkept.trans hwait) ht
    · exact ⟨rest, .inr ⟨k, hinbox⟩⟩
    · exact ⟨rest, .inl hinbox⟩
  · rcases step_cases hstep with ⟨inputs, n, hc⟩ | ⟨k, rest, -, hresume⟩ | ⟨rest, -, rfl⟩ | ⟨image, rest, -, hload⟩
    · exact State.awaitingKey_of_cycle (s := { s with inbox := s.inbox.tail, freeCycles := n }) hc ht
    · obtain ⟨y, rfl⟩ := State.resume_eq_next hresume
      cases ht
    · cases ht
    · obtain ⟨-, rfl⟩ := State.load_eq_next hload
      rw [State.storeBytes_run] at ht
      exact .inl ht

/-- Settles O21: the one transition of a resumption, and the two conditions without which there is none. -/
theorem resumeDeliversKey : Obligations.ResumeDeliversKey := by
  refine fun s k => ⟨fun x hwait hk => ?_, State.resume_refused_of_gt, State.resume_refused_of_not_awaitingKey k,
    fun rest hinbox => step_of_inbox_cons hinbox⟩
  refine ⟨_, State.resume_of_awaitingKey hwait hk, rfl, ?_, regsKeptBut_setReg _ x _, rfl, rfl, rfl, rfl,
    keepsAllBut_resumed s x _⟩
  rw [State.tick_reg, State.reg_setReg_self, BitVec.toNat_ofNat]
  exact Nat.mod_eq_of_lt (by omega)

end Sys2Proof.Machine
end

section
/-! O22 to O25 and O59 (70_reset_and_hazards.md R260, R261, R264, R273): what a reset leaves, the load that follows it, and the
jump to itself that ends a run. -/
namespace Sys2Proof.Machine

section
variable {s : State} {image : List Byte}

/- ## Reset -/

theorem resetByte_of_lt (cfg : Config) {a : Nat} (h : a < 80) : resetByte cfg a = cfg.fontset[a] := dif_pos h

theorem resetByte_of_ge (cfg : Config) {a : Nat} (h : 80 ≤ a) : resetByte cfg a = 0 := dif_neg (Nat.not_lt.2 h)

@[simp] theorem State.resetWith_reg (cfg : Config) (r : Nibble) : (State.resetWith cfg).reg r = 0 := Vector.getElem_replicate r.isLt

/-- A reset of any state differs from the reset state of its configuration by the host's side alone. -/
theorem keepsAllBut_doReset (s : State) : KeepsAllBut [.inbox, .freeCycles] (State.resetWith s.cfg) s.doReset := by
  intro p hp
  cases p with
  | inbox | freeCycles => exact absurd (by decide) hp
  | mem | regs => exact fun _ => rfl
  | fb => exact fun _ _ => rfl
  | _ => rfl

theorem step_of_inbox_reset {rest : List HostOp} (h : s.inbox = .reset :: rest) :
    step s = .next ({ s with inbox := rest } : State).doReset :=
  step_of_inbox_cons h

/- ## Load -/

theorem State.load_of_reset (hreset : s = s.doReset) (hlen : image.length ≤ 3584) :
    s.load image = .next (s.storeBytes 0x200 image) := by
  rw [State.load, if_pos hreset, if_pos hlen]

theorem State.load_too_long (hreset : s = s.doReset) (hlen : 3584 < image.length) : s.load image = .refused .imageTooLong := by
  rw [State.load, if_pos hreset, if_neg (Nat.not_le.2 hlen)]

theorem State.load_not_after_reset (hreset : s ≠ s.doReset) : s.load image = .refused .loadNotAfterReset := if_neg hreset

theorem step_of_inbox_load {rest : List HostOp} (h : s.inbox = .load image :: rest) :
    step s = ({ s with inbox := rest } : State).load image :=
  step_of_inbox_cons h

/-- A reset and a load, one after the other, leave the image in the state of the reset. -/
theorem run_reset_load {rest : List HostOp} (hinbox : s.inbox = .reset :: .load image :: rest) (hlen : image.length ≤ 3584) :
    Host.Core.run Sys2Proof.core 2 s = .next (({ s with inbox := rest } : State).doReset.storeBytes 0x200 image) := by
  have hreset : step s = .next ({ s with inbox := .load image :: rest } : State).doReset := step_of_inbox_reset hinbox
  have hload : step ({ s with inbox := .load image :: rest } : State).doReset =
      .next (({ s with inbox := rest } : State).doReset.storeBytes 0x200 image) :=
    (step_of_inbox_load rfl).trans (State.load_of_reset rfl hlen)
  exact (run_succ_of_step Sys2Proof.core 1 hreset).trans (run_succ_of_step Sys2Proof.core 0 hload)

theorem State.storeBytes_inbox (s : State) (a : Nat) (bs : List Byte) : (s.storeBytes a bs).inbox = s.inbox :=
  keepsAllBut_storeBytes s a bs .inbox (by decide)

/- ## The jump to itself -/

theorem addressOf_fieldNNN {a : Word} (h : a.toNat < 4096) : addressOf (fieldNNN a) = a := by
  apply BitVec.eq_of_toNat_eq
  rw [toNat_addressOf, toNat_fieldNNN, Nat.mod_eq_of_lt h]

/-- Family 1 ORed onto a 12-bit address is the word of the jump to that address. -/
theorem or_eq_encode_jp {a : Word} (h : a.toNat < 4096) : 0x1000#16 ||| a = encode (.jp (fieldNNN a)) := by
  apply BitVec.eq_of_toNat_eq
  have hor : 2 ^ 12 * 1 + a.toNat = 2 ^ 12 * 1 ||| a.toNat := Nat.two_pow_add_eq_or_of_lt h 1
  rw [BitVec.toNat_or, encode, toNat_wordNNN, toNat_fieldNNN, Nat.mod_eq_of_lt h]
  exact hor.symm

/-- A write of the cycle's own record keeps everything else. -/
theorem keepsAllBut_cycleRecord (s : State) (inputs : CycleInputs) (cur : Fetched) (events : List Event) :
    KeepsAllBut ownParts s { s with inputs := inputs, cur := cur, events := events } := by
  intro p hp
  cases p with
  | inbox | freeCycles | inputs | cur | events => exact absurd (by decide) hp
  | mem | regs => exact fun _ => rfl
  | fb => exact fun _ _ => rfl
  | _ => rfl

/-- A cycle of a stopped run jumps to where it was, so it leaves its own record and one tick. -/
theorem State.cycle_of_stopped (inputs : CycleInputs) (h : s.Stopped) :
    s.cycle inputs = .next ({ s with
      inputs := inputs, cur := { addr := s.pc, op := some (0x1000#16 ||| s.pc) }, events := [] } : State).tick := by
  obtain ⟨hrun, hfetch⟩ := h
  have hpc : s.pc.toNat < 4096 := by
    obtain ⟨-, hle⟩ := State.fetch_ok_pc hfetch
    omega
  have hdec : decode (0x1000#16 ||| s.pc) = .ok (.jp (fieldNNN s.pc)) := by
    rw [or_eq_encode_jp hpc]
    exact decodeOfEncode _
  rw [State.cycle_of_completed hrun hfetch hdec rfl hrun, addressOf_fieldNNN hpc]
  rfl

end

/- ## The statements -/

/-- Settles O24: a load runs on exactly what a reset leaves, and there it is one block store. -/
theorem loadPlacesImage : Obligations.LoadPlacesImage := by
  refine ⟨fun cfg image hlen => ?_, fun cfg image hlen => ?_, fun s image hdiffers => ?_, fun s image rest hinbox hlen => ?_,
    fun _ _ _ => step_of_inbox_load⟩
  · exact ⟨_, State.load_of_reset rfl hlen, fun j hj => State.readByte_storeBytes_add _ _ hj,
      bytesKeptOutside_storeBytes _ _ _, keepsAllBut_storeBytes _ _ _⟩
  · exact State.load_too_long rfl hlen
  · refine State.load_not_after_reset fun hreset => hdiffers ?_
    have hkept := keepsAllBut_doReset s
    rwa [← hreset] at hkept
  · refine ⟨_, run_reset_load hinbox hlen, fun j hj => State.readByte_storeBytes_add _ _ hj,
      bytesKeptOutside_storeBytes _ _ _, ?_, State.storeBytes_inbox _ _ _⟩
    have hreset := keepsAllBut_doReset ({ s with inbox := rest } : State)
    exact (hreset.mono (by decide)).trans ((keepsAllBut_storeBytes _ _ _).mono (by decide))

/-- Settles O25: the cycle leaves `pc` and memory, so the next fetch reads the same jump. -/
theorem stoppedRunIdles : Obligations.StoppedRunIdles := by
  intro s inputs hstopped
  refine ⟨_, State.cycle_of_stopped inputs hstopped, hstopped, ?_⟩
  have hrecord := keepsAllBut_cycleRecord s inputs { addr := s.pc, op := some (0x1000#16 ||| s.pc) } []
  exact (hrecord.mono (by decide)).trans ((keepsAllBut_tick _).mono (by decide))

/-- Settles O22: memory lists nothing after reset, so it reads as its reset contents; every other part is a constant. -/
theorem resetValues : Obligations.ResetValues :=
  fun cfg => ⟨fun _ => resetByte_of_lt cfg, fun _ => resetByte_of_ge cfg, State.resetWith_reg cfg, rfl, rfl, rfl, rfl, rfl,
    Frame.cell_clear, rfl, rfl, rfl⟩

/-- Settles O23: the reset keeps nothing of the state but the configuration and the host's side. -/
theorem resetFromAnyState : Obligations.ResetFromAnyState :=
  fun s _ hinbox => ⟨_, step_of_inbox_reset hinbox, (keepsAllBut_doReset { s with inbox := _ }).mono (by decide), rfl⟩

/-- Settles O59: the base case of O58, with nothing listed in memory and the stack empty. -/
theorem resetMeetsMachineInvariant : Obligations.ResetMeetsMachineInvariant := State.resetWith_inv

end Sys2Proof.Machine
end
